-- ==== Sys2Proof/Word.lean ====
section
/-! DEFINITION. The words of the CORE: a 64-bit limb or control register, a byte lane, a big-register index. -/

namespace Sys2Proof

/-- A limb or a control register: 64 bits (R7, R36). -/
abbrev Word := BitVec 64

/-- One byte lane of the host window (R88). -/
abbrev Byte := BitVec 8

/-- The index of a big register B0..B15. Every 4-bit register field names an existing register (R31, R121). -/
abbrev Reg := Fin 16

end Sys2Proof
end

