-- ==== Sys2Proof/Syntax.lean ====
section
/-! DEFINITION. The seven commands of the CORE, one constructor per row of the opcode table (R123). -/

namespace Sys2Proof

/-- A legal command (R123), its register fields read as register numbers and S as a Boolean (R124). -/
inductive Instr where
  /-- NOP (R167). -/
  | nop
  /-- ADDM rd, rs1, rs2 (R183). -/
  | addm (rd rs1 rs2 : Reg)
  /-- SUBM rd, rs1, rs2 (R184). -/
  | subm (rd rs1 rs2 : Reg)
  /-- MULLO rd, rs1, rs2 (R186). -/
  | mullo (rd rs1 rs2 : Reg)
  /-- SUB2 rd, rs1 (R188). -/
  | sub2 (rd rs1 : Reg)
  /-- SEED rd, rs1 when s is false (the 64-bit seed), SEED.8 rd, rs1 when s is true (R213). -/
  | seed (rd rs1 : Reg) (s : Bool)
  /-- INV rd, rs1 (R230). -/
  | inv (rd rs1 : Reg)
deriving DecidableEq, Repr

/-- The four command formats (R122). -/
inductive Format where
  | n
  | r3
  | r2
  | r2s
deriving DecidableEq, Repr

/-- The destination register of a command, NOP having none (R32). -/
def Instr.dest : Instr → Option Reg
  | .nop => none
  | .addm rd _ _ => some rd
  | .subm rd _ _ => some rd
  | .mullo rd _ _ => some rd
  | .sub2 rd _ => some rd
  | .seed rd _ _ => some rd
  | .inv rd _ => some rd

/-- The source registers of a command (R32). -/
def Instr.sources : Instr → List Reg
  | .nop => []
  | .addm _ rs1 rs2 => [rs1, rs2]
  | .subm _ rs1 rs2 => [rs1, rs2]
  | .mullo _ rs1 rs2 => [rs1, rs2]
  | .sub2 _ rs1 => [rs1]
  | .seed _ rs1 _ => [rs1]
  | .inv _ rs1 => [rs1]

/-- How many low limbs of each source a command reads at limb count k: SEED reads only limb 0 (R33). -/
def Instr.limbsRead (i : Instr) (k : Nat) : Nat :=
  match i with
  | .nop => k
  | .addm _ _ _ => k
  | .subm _ _ _ => k
  | .mullo _ _ _ => k
  | .sub2 _ _ => k
  | .seed _ _ _ => 1
  | .inv _ _ => k

end Sys2Proof
end

