-- ==== Sys2Proof/WellFormed.lean ====
section
/-! DEFINITION. The raw fields of a command word and the check that they form a legal command: a known opcode, and every
must-be-zero field of its format zero (R121, R122, R123, R126). -/

namespace Sys2Proof

/-- The fields of the 64-bit command word (R121). -/
structure Fields where
  op   : BitVec 8
  rd   : BitVec 4
  rs1  : BitVec 4
  rs2  : BitVec 4
  s    : BitVec 1
  rsv  : BitVec 11
  rsvh : BitVec 32
deriving DecidableEq, Repr

/-- The format of an opcode, none for the reserved opcodes 0x07 to 0xFF (R123). -/
def formatOf (op : BitVec 8) : Option Format :=
  if op = 0x00#8 then some .n
  else if op = 0x01#8 then some .r3
  else if op = 0x02#8 then some .r3
  else if op = 0x03#8 then some .r3
  else if op = 0x04#8 then some .r2
  else if op = 0x05#8 then some .r2s
  else if op = 0x06#8 then some .r2
  else none

/-- The fields that the table of R122 marks 0 in a format are zero. -/
def Fields.zerosOf (f : Fields) : Format → Bool
  | .n   => f.rd == 0 && f.rs1 == 0 && f.rs2 == 0 && f.s == 0
  | .r3  => f.s == 0
  | .r2  => f.rs2 == 0 && f.s == 0
  | .r2s => f.rs2 == 0

/-- The fields form a legal command (R126): a known opcode, RSV and RSVH zero, and the format's must-be-zero fields zero. -/
def Fields.wellFormed (f : Fields) : Bool :=
  f.rsv == 0 && f.rsvh == 0 &&
    match formatOf f.op with
    | some fmt => f.zerosOf fmt
    | none => false

/-- The opcode of a command (R123). -/
def Instr.opcode : Instr → BitVec 8
  | .nop => 0x00
  | .addm _ _ _ => 0x01
  | .subm _ _ _ => 0x02
  | .mullo _ _ _ => 0x03
  | .sub2 _ _ => 0x04
  | .seed _ _ _ => 0x05
  | .inv _ _ => 0x06

/-- The 4-bit field that names a register (R121). -/
def Reg.bits (r : Reg) : BitVec 4 := BitVec.ofNat 4 r.val

/-- The fields of a command (R122): what its format does not use is zero. -/
def Instr.fields (i : Instr) : Fields :=
  match i with
  | .nop => { op := i.opcode, rd := 0, rs1 := 0, rs2 := 0, s := 0, rsv := 0, rsvh := 0 }
  | .addm rd rs1 rs2 => { op := i.opcode, rd := rd.bits, rs1 := rs1.bits, rs2 := rs2.bits, s := 0, rsv := 0, rsvh := 0 }
  | .subm rd rs1 rs2 => { op := i.opcode, rd := rd.bits, rs1 := rs1.bits, rs2 := rs2.bits, s := 0, rsv := 0, rsvh := 0 }
  | .mullo rd rs1 rs2 => { op := i.opcode, rd := rd.bits, rs1 := rs1.bits, rs2 := rs2.bits, s := 0, rsv := 0, rsvh := 0 }
  | .sub2 rd rs1 => { op := i.opcode, rd := rd.bits, rs1 := rs1.bits, rs2 := 0, s := 0, rsv := 0, rsvh := 0 }
  | .seed rd rs1 s => { op := i.opcode, rd := rd.bits, rs1 := rs1.bits, rs2 := 0, s := BitVec.ofBool s, rsv := 0, rsvh := 0 }
  | .inv rd rs1 => { op := i.opcode, rd := rd.bits, rs1 := rs1.bits, rs2 := 0, s := 0, rsv := 0, rsvh := 0 }

/-- A command is well formed when its fields are. No register index is illegal (R121), so every Instr is:
see Laws/PerInstr.lean. -/
def Instr.wellFormed (i : Instr) : Bool := i.fields.wellFormed

end Sys2Proof
end

