-- ==== Sys2Proof/Decode.lean ====
section
/-! DEFINITION. The decoder of R125, total on all 2^64 command words, and the encoder of R121, R122 and R128. -/

namespace Sys2Proof

/-- The unsigned field `w[lo+len−1 : lo]` (R9). -/
def field (w : Word) (lo len : Nat) : Nat := w.toNat / 2 ^ lo % 2 ^ len

/-- The 4-bit register field whose lowest bit is `lo`, as a register number (R124). -/
def regField (w : Word) (lo : Nat) : Reg := Fin.ofNat 16 (field w lo 4)

/-- The decoder (R125). `none` is ILLEGAL: the CORE has no other reason to reject a word (R126, R260). -/
def decode (w : Word) : Option Instr :=
  if field w 21 43 ≠ 0 then none
  else match field w 0 8 with
    | 0x00 => if field w 8 13 ≠ 0 then none else some .nop
    | 0x01 => if field w 20 1 ≠ 0 then none else some (.addm (regField w 8) (regField w 12) (regField w 16))
    | 0x02 => if field w 20 1 ≠ 0 then none else some (.subm (regField w 8) (regField w 12) (regField w 16))
    | 0x03 => if field w 20 1 ≠ 0 then none else some (.mullo (regField w 8) (regField w 12) (regField w 16))
    | 0x04 => if field w 16 5 ≠ 0 then none else some (.sub2 (regField w 8) (regField w 12))
    | 0x05 => if field w 16 4 ≠ 0 then none else some (.seed (regField w 8) (regField w 12) (field w 20 1 == 1))
    | 0x06 => if field w 16 5 ≠ 0 then none else some (.inv (regField w 8) (regField w 12))
    | _ => none

/-- The fields of a command word (R121). -/
def Fields.ofWord (w : Word) : Fields :=
  { op   := BitVec.ofNat 8 (field w 0 8)
    rd   := BitVec.ofNat 4 (field w 8 4)
    rs1  := BitVec.ofNat 4 (field w 12 4)
    rs2  := BitVec.ofNat 4 (field w 16 4)
    s    := BitVec.ofNat 1 (field w 20 1)
    rsv  := BitVec.ofNat 11 (field w 21 11)
    rsvh := BitVec.ofNat 32 (field w 32 32) }

/-- The command word with the given fields (R121). -/
def Fields.toWord (f : Fields) : Word :=
  BitVec.ofNat 64 (f.op.toNat + f.rd.toNat * 2 ^ 8 + f.rs1.toNat * 2 ^ 12 + f.rs2.toNat * 2 ^ 16 + f.s.toNat * 2 ^ 20
    + f.rsv.toNat * 2 ^ 21 + f.rsvh.toNat * 2 ^ 32)

/-- The command word of a command (R122, R128). -/
def encode (i : Instr) : Word := i.fields.toWord

/-- The command that the decoder reads from a row's `nbits` bits `w` of spec/opcode_table.json; bits above `nbits` are zero.
A command is one 64-bit word (R120), so nothing longer decodes. -/
def decodeTableWord (nbits w : Nat) : Option Instr :=
  if w % 2 ^ nbits < 2 ^ 64 then decode (BitVec.ofNat 64 (w % 2 ^ nbits)) else none

end Sys2Proof
end

