-- ==== Sys2Proof/Config.lean ====
section
/-! DEFINITION. What an implementation of the CORE fixes (R8, R81): the parameters the spec leaves OPEN, and its constants. -/

namespace Sys2Proof

/-- The OPEN parameters of an instance (R8, R81; I9, I10). They are no state of the engine (R49): no step changes them,
and every statement quantified over states is quantified over them.
LAT, the third OPEN parameter, is taken as I11 allows: completion may be scheduled anywhere after accept. -/
structure Config where
  /-- The limb capacity of a big register (R8, I9). -/
  kmax : Nat
  /-- The window's platform address (R81, I10). The CORE itself sees byte offsets only (R80). -/
  base : Nat
deriving DecidableEq, Repr

/-- The bounds the spec puts on the parameters: 1 ≤ KMAX ≤ 512 (R8), and BASE a multiple of 0x20000 (R81). -/
abbrev Config.wf (c : Config) : Prop := 1 ≤ c.kmax ∧ c.kmax ≤ 512 ∧ c.base % 0x20000 = 0

/-- The reference instance: KMAX = 64 (R8). BASE = 0 is a DESIGN CHOICE (log entry 2): BASE is OPEN. -/
def Config.reference : Config := { kmax := 64, base := 0 }

/-- What a read returns of a limb that nothing has written (R267: some value, which nothing fixes). A free value without a body:
the first argument is State.free, the second the limb's window offset (log entry 1). -/
opaque Config.freeLimb : Nat → Nat → Word

/-- The length of the host window in bytes (R81). -/
def windowSize : Nat := 0x20000

/-- The byte offset that a platform address has in the window of this instance, if it lies there (R81). -/
def Config.windowOffset (c : Config) (addr : Nat) : Option Nat :=
  if c.base ≤ addr ∧ addr < c.base + windowSize then some (addr - c.base) else none

/-- LIMB_W: bits per limb (R7, R8). -/
def limbW : Nat := 64

/-- NREG: the number of big registers (R8). -/
def nreg : Nat := 16

/-- SEED_W: bits of precision of the seed ROM's output (R8). -/
def seedW : Nat := 8

/-- P0_LIFT: the precision the multi-limb lifting starts from (R8, R232). -/
def p0Lift : Nat := 64

end Sys2Proof
end

