-- ==== Sys2Proof/Machine/State.lean ====
section
/-! DEFINITION. The state of the CORE as plain data (R30), the two agents' moves that it waits for, the reasons a step can
stop, and the state after a hard reset (R51, R300). -/

namespace Sys2Proof.Machine

/-- The codes STATUS.ERR can hold (R260). The reserved codes 4 to 15 are never produced (I18), so none can be written here. -/
inductive ErrCode where
  | ok
  | illegal
  | invalidWidth
  | notInvertible
deriving DecidableEq, Repr

/-- The number of an error code (R260). -/
def ErrCode.code : ErrCode → Nat
  | .ok => 0
  | .illegal => 1
  | .invalidWidth => 2
  | .notInvertible => 3

/-- The engine's phase (R45). CMDL and KL have a value only in EXEC (R51), so they are held there and nowhere else.
STATUS.BUSY is 1 exactly in EXEC (R45) and is computed from the phase, see State.busy. -/
inductive Phase where
  | idle
  /-- EXEC, with the latched command word CMDL and the latched limb count KL (R45). -/
  | exec (cmdl : Word) (kl : BitVec 16)
deriving DecidableEq, Repr

/-- The operand store as the bytes of its window offsets (R86, R88): strictly rising offsets, and no entry for a byte
that holds no value. -/
abbrev Memory := List Host.Cell

/-- One request on the host port: kind, byte offset, size in bytes, write data (R80, R82).
Several masters' accesses are one list in arrival order (R96), and an access says nothing of who issued it (R274). -/
inductive Access where
  | read (off size : Nat)
  | write (off size : Nat) (v : Word)
deriving DecidableEq, Repr

/-- The host port's answer (R80, R82). -/
inductive Response where
  | readOkay (rdata : Word)
  | writeOkay
  | berr
deriving DecidableEq, Repr

/-- One move of an agent, in the single order in which the CORE takes them (R93). -/
inductive Input where
  /-- A host access. -/
  | access (a : Access)
  /-- The engine's turn: Complete if a command is executing (R162), nothing if the phase is IDLE (R279). -/
  | engineTurn
  /-- The `rst` input asserted and released again (R300): the host has no step in between (I17). -/
  | hardReset
deriving DecidableEq, Repr

/-- The state of one CORE instance. `cfg`, `inputs`, `resp` and `free` are the model's own fields (log entries 1 to 3): the spec's
state (R30) is the operand store, CTRL, STATUS, WIDTH, CMD and the hidden engine state. CAPS and the seed ROM are constants. -/
structure State where
  /-- The instance's parameters (R8). They are no state of the engine (R49) and no step changes them. -/
  cfg     : Config
  /-- The operand store B0..B15 (R31), at the offsets of its window (R86). -/
  store   : Memory
  /-- CTRL.IE (R37). CTRL.SRST reads 0 and holds nothing. -/
  ie      : Bool
  /-- STATUS.DONE (R39). -/
  done    : Bool
  /-- STATUS.ERR (R39, R260). -/
  err     : ErrCode
  /-- STATUS.OVR (R39, R265). -/
  ovr     : Bool
  /-- WIDTH.K (R42). -/
  width   : BitVec 16
  /-- LASTCMD, the last accepted command word, which a CMD read returns (R44). -/
  lastcmd : Word
  /-- The phase, and in EXEC the latches CMDL and KL (R45). STATUS.BUSY is computed from it. -/
  phase   : Phase
  /-- The moves still to come, first one first (R93). -/
  inputs  : List Input
  /-- The host port's answer given by the last step; none if that step took no host access. -/
  resp    : Option Response
  /-- How often the free values that unwritten limbs are read as have been renewed: by a command that read such a limb, and by a
  hard reset. A host read leaves it (R91). Such a limb is read as Config.freeLimb of this count (log entry 1). -/
  free    : Nat
deriving DecidableEq, Repr

/-- Why a run stops. -/
inductive Fault where
  /-- The host's access was not admitted and got BERR (R82, which has a model treat BERR as a fault of the host program; I16).
  Raised by hostAccess. Safe: the CORE's state is unchanged (R266), and what the host does next is not the CORE's. -/
  | busError
  /-- A meaning was asked for while no command is executing: only phase EXEC has a Complete step (R162).
  Raised by exec, never by step, which asks for a meaning in phase EXEC only. Safe. -/
  | notExecuting
deriving DecidableEq, Repr

/-- Why a command has no meaning in the model. -/
inductive Refusal where
  /-- The model gives the command no meaning. Raised by exec's refused arms, of which there are none. Safe. -/
  | notModelled (mnemonic : String)
deriving DecidableEq, Repr

/-- The state that a hard reset leaves (R51, R300): every CSR field 0, the phase IDLE, the operand store UNSPECIFIED, which is
a store that lists nothing (R34). The parameters, the moves still to come and the count of free values are not the engine's, and are given. -/
def State.hardResetOf (c : Config) (n : Nat) (rest : List Input) : State :=
  { cfg     := c
    store   := []
    ie      := false
    done    := false
    err     := .ok
    ovr     := false
    width   := 0
    lastcmd := 0
    phase   := .idle
    inputs  := rest
    resp    := none
    free    := n }

/-- The machine right after a hard reset (R51), the reference instance, with no move of the host waiting (log entry 3)
and the free values not renewed (log entry 1). -/
def State.reset : State := State.hardResetOf Config.reference 0 []

end Sys2Proof.Machine
end

