-- ==== Sys2Proof/Machine/Ops.lean ====
section
/-! DEFINITION. The named operations over the operand store and the engine's registers: bytes and limbs of the store,
accept, complete (the one place where a command's outcome, errors included, is recorded), soft reset and hard reset. -/

namespace Sys2Proof.Machine

/-- What a byte of the operand store holds that nothing has written: no value, never zero (R34). -/
def Memory.unlisted : Option Byte := none

/-- The byte at a window offset. -/
def Memory.readByte (m : Memory) (a : Nat) : Option Byte :=
  match m with
  | [] => Memory.unlisted
  | c :: rest => if c.1 = a then some c.2 else Memory.readByte rest a

/-- The `n` bytes from offset `a` up, if all of them hold a value. -/
def Memory.readBytes (m : Memory) (a : Nat) : Nat → Option (List Byte)
  | 0 => some []
  | n + 1 =>
    match m.readByte a, Memory.readBytes m (a + 1) n with
    | some b, some bs => some (b :: bs)
    | _, _ => none

/-- The cells of consecutive bytes from offset `a` up. -/
def cellsAt (a : Nat) : List Byte → Memory
  | [] => []
  | b :: bs => (a, b) :: cellsAt (a + 1) bs

/-- The store with the bytes from offset `a` up replaced, and every other byte as it was. -/
def Memory.writeBytes (m : Memory) (a : Nat) (bs : List Byte) : Memory :=
  m.filter (fun c => decide (c.1 < a)) ++ cellsAt a bs ++ m.filter (fun c => decide (a + bs.length ≤ c.1))

/-- The canonical form of the store: strictly rising offsets. A listed byte holds a value and an unlisted one none, so no
entry equals what an unlisted offset reads as. -/
abbrev Memory.wf (m : Memory) : Prop := (m.map (·.1)).Pairwise (· < ·)

/-- The value of bytes in little-endian order (R88). -/
def bytesValue : List Byte → Nat
  | [] => 0
  | b :: bs => b.toNat + 256 * bytesValue bs

/-- The low `n` bytes of a value in little-endian order (R88). -/
def valueBytes : Nat → Nat → List Byte
  | 0, _ => []
  | n + 1, v => BitVec.ofNat 8 (v % 256) :: valueBytes n (v / 256)

/-- The window offset of limb `j` of big register `r` (R86). -/
def limbOffset (r : Reg) (j : Nat) : Nat := 0x10000 + 0x1000 * r.val + 8 * j

/-- Limb `j` of big register `r`, if it has been written (R34). -/
def State.limb (s : State) (r : Reg) (j : Nat) : Option Word :=
  (s.store.readBytes (limbOffset r j) 8).map fun bs => BitVec.ofNat 64 (bytesValue bs)

/-- `Br.limb[j] <- v` (R86): all 64 bits at once (R89), in little-endian byte lanes (R88). -/
def State.setLimb (s : State) (r : Reg) (j : Nat) (v : Word) : State :=
  { s with store := s.store.writeBytes (limbOffset r j) (valueBytes 8 v.toNat) }

/-- What a read of limb `j` of `Br` returns: the limb, or, where nothing has written it, a free value (R267, log entry 1).
It is the same at every read until State.free moves (R91, log entry 7). -/
def State.readLimb (s : State) (r : Reg) (j : Nat) : Word :=
  (s.limb r j).getD (Config.freeLimb s.free (limbOffset r j))

/-- `x[r]` at limb count `k` as a command reads it (R11): limbs 0 to k−1 of `Br`, limb j weighted 2^(64j). -/
def State.source (s : State) (r : Reg) : Nat → Nat
  | 0 => 0
  | k + 1 => s.source r k + 2 ^ (64 * k) * (s.readLimb r k).toNat

/-- The state after a command's read of its sources: where not all that it read had been written, the free values are renewed
(R34: never one fixed value per run; log entry 1). -/
def State.afterRead (s : State) (allWritten : Bool) : State :=
  if allWritten then s else { s with free := s.free + 1 }

/-- `x[r]` at limb count `k` (R11): limbs 0 to k−1 of `Br` as one unsigned integer, if all of them have been written.
The 8·k bytes of the register's slot are that integer in little-endian order (R88). -/
def State.big (s : State) (r : Reg) (k : Nat) : Option Nat :=
  (s.store.readBytes (limbOffset r 0) (8 * k)).map bytesValue

/-- The writeback `x[rd] <- v` at limb count `k` (R165): limbs 0 to k−1 take the n bits of `v`, limbs k to KMAX−1 become 0. -/
def State.writeback (s : State) (rd : Reg) (k v : Nat) : State :=
  { s with store := s.store.writeBytes (limbOffset rd 0) (valueBytes (8 * k) v ++ List.replicate (8 * (s.cfg.kmax - k)) 0) }

/-- A result on its way to a big register: the destination, the limb count and the value. -/
structure Result where
  rd : Reg
  k  : Nat
  v  : Nat
deriving DecidableEq, Repr

/-- Accept a command word (R160). STATUS.BUSY becomes 1 with phase EXEC; OVR and IE stay. -/
def State.accept (s : State) (v : Word) : State :=
  { s with lastcmd := v, phase := .exec v s.width, done := false, err := .ok }

/-- Complete (R162), and with it the recording of an error: the CORE never traps, and the whole record of an error is
STATUS.ERR and STATUS.DONE (R271). The result is written back only if the command succeeded and has one. -/
def State.complete (s : State) (err : ErrCode) (res : Option Result) : State :=
  { s with
    store := match err, res with
      | .ok, some r => (s.writeback r.rd r.k r.v).store
      | _, _ => s.store
    err   := err
    done  := true
    phase := .idle }

/-- The soft reset (R302): a command in flight is dropped, the operand store is kept. -/
def State.softReset (s : State) : State :=
  { s with phase := .idle, done := false, err := .ok, ovr := false, ie := false, width := 0, lastcmd := 0 }

/-- The hard reset (R300), after which the moves still to come go on. It leaves every limb UNSPECIFIED anew, so the free values are
renewed (R34, log entry 1). -/
def State.hardReset (s : State) : State := State.hardResetOf s.cfg (s.free + 1) s.inputs

end Sys2Proof.Machine
end

