-- ==== Sys2Proof/Machine/Operands.lean ====
section
/-! DEFINITION. How a command reads its width and its sources at Complete (R163, R164). All sources are read in full, from the
store as it stands (State.source), before the destination is written, so the destination may be a source. -/

namespace Sys2Proof.Machine

/-- The outcome of one step of the CORE. -/
abbrev Outcome := Host.Outcome State Fault Refusal

/-- The width check of R163 on the latched limb count KL: K = 0 or K > KMAX ends the command with INVALID_WIDTH before any
operand is read (R262). The operation goes on with k = K. -/
def State.withWidth (s : State) (op : Nat → Outcome) : Outcome :=
  match s.phase with
  | .idle => .fault .notExecuting
  | .exec _ kl =>
    if kl.toNat = 0 ∨ s.cfg.kmax < kl.toNat then .next (s.complete .invalidWidth none) else op kl.toNat

/-- The state after the low `n` limbs of each of the registers have been read (R164). -/
def State.afterSources (s : State) (rs : List Reg) (n : Nat) : State :=
  s.afterRead (rs.all fun r => (s.big r n).isSome)

/-- The command succeeds with the n-bit result `v` for `rd` (R162). -/
def State.succeed (s : State) (rd : Reg) (k v : Nat) : Outcome :=
  .next (s.complete .ok (some { rd := rd, k := k, v := v }))

/-- The command ends with an error code and writes no big register (R263). -/
def State.fail (s : State) (e : ErrCode) : Outcome := .next (s.complete e none)

end Sys2Proof.Machine
end

