-- ==== Sys2Proof/Machine/Control.lean ====
section
/-! DEFINITION. The command with no operation: NOP (R167). -/

namespace Sys2Proof.Machine

/-- NOP (R167): completes with ERR = 0 whatever WIDTH was latched, and touches no big register. -/
def execNop (s : State) : Outcome :=
  match s.phase with
  | .idle => .fault .notExecuting
  | .exec _ _ => .next (s.complete .ok none)

end Sys2Proof.Machine
end

