-- ==== Sys2Proof/Machine/Kernel.lean ====
section
/-! DEFINITION. The limb arithmetic kernel (R13, R180): the four total functions modulo 2^n, the commands ADDM, SUBM, MULLO
and SUB2 that expose them, and the limb-by-limb datapath that the spec describes for the adder, the subtractor (R181, R182)
and the low-word multiplier (R185). Only the values are architectural; that the datapath gives them is an obligation. -/

namespace Sys2Proof.Machine

/-- `addMod_n(a, b) = (a + b) mod 2^n` (R13). -/
def addMod (n a b : Nat) : Nat := (a + b) % 2 ^ n

/-- `subMod_n(a, b) = (a − b) mod 2^n`, the non-negative remainder (R10, R13). -/
def subMod (n a b : Nat) : Nat := (((a : Int) - (b : Int)) % (2 : Int) ^ n).toNat

/-- `mulLow_n(a, b) = (a·b) mod 2^n` (R13). -/
def mulLow (n a b : Nat) : Nat := a * b % 2 ^ n

/-- `subFromTwo_n(a) = (2 − a) mod 2^n`, the non-negative remainder (R10, R13). -/
def subFromTwo (n a : Nat) : Nat := ((2 - (a : Int)) % (2 : Int) ^ n).toNat

/-- ADDM (R183): x[rd] <- (x[rs1] + x[rs2]) mod 2^n. -/
def execAddm (rd rs1 rs2 : Reg) (s : State) : Outcome :=
  s.withWidth fun k =>
    (s.afterSources [rs1, rs2] k).succeed rd k (addMod (64 * k) (s.source rs1 k) (s.source rs2 k))

/-- SUBM (R184): x[rd] <- (x[rs1] − x[rs2]) mod 2^n, the first source minus the second. -/
def execSubm (rd rs1 rs2 : Reg) (s : State) : Outcome :=
  s.withWidth fun k =>
    (s.afterSources [rs1, rs2] k).succeed rd k (subMod (64 * k) (s.source rs1 k) (s.source rs2 k))

/-- MULLO (R186): x[rd] <- (x[rs1] · x[rs2]) mod 2^n. -/
def execMullo (rd rs1 rs2 : Reg) (s : State) : Outcome :=
  s.withWidth fun k =>
    (s.afterSources [rs1, rs2] k).succeed rd k (mulLow (64 * k) (s.source rs1 k) (s.source rs2 k))

/-- SUB2 (R188): x[rd] <- (2 − x[rs1]) mod 2^n. -/
def execSub2 (rd rs1 : Reg) (s : State) : Outcome :=
  s.withWidth fun k => (s.afterSources [rs1] k).succeed rd k (subFromTwo (64 * k) (s.source rs1 k))

/-- The unsigned value of a limb sequence, least significant limb first (R7, R87). -/
def limbsValue : List Word → Nat
  | [] => 0
  | w :: ws => w.toNat + 2 ^ 64 * limbsValue ws

/-- The adder's carry chain over two limb sequences of one length (R181), with the carry into the first limb. The last
carry is discarded. -/
def addChain : List Word → List Word → Nat → List Word
  | a :: as, b :: bs, c =>
    let sum := a.toNat + b.toNat + c
    BitVec.ofNat 64 (sum % 2 ^ 64) :: addChain as bs (sum / 2 ^ 64)
  | _, _, _ => []

/-- The subtractor's borrow chain (R182), with the borrow into the first limb. The last borrow is discarded. -/
def subChain : List Word → List Word → Nat → List Word
  | a :: as, b :: bs, w =>
    let d : Int := (a.toNat : Int) - (b.toNat : Int) - (w : Int)
    BitVec.ofNat 64 (d % (2 : Int) ^ 64).toNat :: subChain as bs (if d < 0 then 1 else 0)
  | _, _, _ => []

/-- Add the word `c` at limb `pos` of an accumulator, carrying upwards, truncated at the accumulator's length (R185). -/
def addWordAt : List Word → Nat → Nat → List Word
  | [], _, _ => []
  | l :: ls, 0, c => BitVec.ofNat 64 ((l.toNat + c) % 2 ^ 64) :: addWordAt ls 0 ((l.toNat + c) / 2 ^ 64)
  | l :: ls, pos + 1, c => l :: addWordAt ls pos c

/-- Add the products of one multiplicand limb with the multiplier's limbs, the first at limb `pos` (R185): the low word of a
product at its own limb, the high word one limb up, and what falls at or above the accumulator's length is discarded. -/
def mulRow (a : Word) : List Word → Nat → List Word → List Word
  | [], _, acc => acc
  | b :: bs, pos, acc =>
    let p := a.toNat * b.toNat
    mulRow a bs (pos + 1) (addWordAt (addWordAt acc pos (p % 2 ^ 64)) (pos + 1) (p / 2 ^ 64))

/-- Add the rows of all multiplicand limbs, the first at limb `pos` (R185). -/
def mulRows : List Word → List Word → Nat → List Word → List Word
  | [], _, _, acc => acc
  | a :: as, bs, pos, acc => mulRows as bs (pos + 1) (mulRow a bs pos acc)

/-- The low-word multiplier (R185): the limb products summed into as many limbs as the operands have. -/
def mulLimbs (as bs : List Word) : List Word := mulRows as bs 0 (List.replicate as.length 0)

/-- The subtract-from-two unit (R187): the constant 2 is built into the unit, and the subtractor's chain does the rest. -/
def subFromTwoLimbs : List Word → List Word
  | [] => []
  | a :: as => subChain (2 :: List.replicate as.length 0) (a :: as) 0

end Sys2Proof.Machine
end

