-- ==== Sys2Proof/Machine/Seed.lean ====
section
/-! DEFINITION. The seed bootstrapper (R210): the seed ROM, the single-limb Newton stage, and the command SEED. -/

namespace Sys2Proof.Machine

/-- The seed ROM's contents, entry 0 first, eight entries a row as R211 prints them. -/
def seedRom : List Byte :=
  [0x01#8, 0xAB#8, 0xCD#8, 0xB7#8, 0x39#8, 0xA3#8, 0xC5#8, 0xEF#8] ++
  [0xF1#8, 0x1B#8, 0x3D#8, 0xA7#8, 0x29#8, 0x13#8, 0x35#8, 0xDF#8] ++
  [0xE1#8, 0x8B#8, 0xAD#8, 0x97#8, 0x19#8, 0x83#8, 0xA5#8, 0xCF#8] ++
  [0xD1#8, 0xFB#8, 0x1D#8, 0x87#8, 0x09#8, 0xF3#8, 0x15#8, 0xBF#8] ++
  [0xC1#8, 0x6B#8, 0x8D#8, 0x77#8, 0xF9#8, 0x63#8, 0x85#8, 0xAF#8] ++
  [0xB1#8, 0xDB#8, 0xFD#8, 0x67#8, 0xE9#8, 0xD3#8, 0xF5#8, 0x9F#8] ++
  [0xA1#8, 0x4B#8, 0x6D#8, 0x57#8, 0xD9#8, 0x43#8, 0x65#8, 0x8F#8] ++
  [0x91#8, 0xBB#8, 0xDD#8, 0x47#8, 0xC9#8, 0xB3#8, 0xD5#8, 0x7F#8] ++
  [0x81#8, 0x2B#8, 0x4D#8, 0x37#8, 0xB9#8, 0x23#8, 0x45#8, 0x6F#8] ++
  [0x71#8, 0x9B#8, 0xBD#8, 0x27#8, 0xA9#8, 0x93#8, 0xB5#8, 0x5F#8] ++
  [0x61#8, 0x0B#8, 0x2D#8, 0x17#8, 0x99#8, 0x03#8, 0x25#8, 0x4F#8] ++
  [0x51#8, 0x7B#8, 0x9D#8, 0x07#8, 0x89#8, 0x73#8, 0x95#8, 0x3F#8] ++
  [0x41#8, 0xEB#8, 0x0D#8, 0xF7#8, 0x79#8, 0xE3#8, 0x05#8, 0x2F#8] ++
  [0x31#8, 0x5B#8, 0x7D#8, 0xE7#8, 0x69#8, 0x53#8, 0x75#8, 0x1F#8] ++
  [0x21#8, 0xCB#8, 0xED#8, 0xD7#8, 0x59#8, 0xC3#8, 0xE5#8, 0x0F#8] ++
  [0x11#8, 0x3B#8, 0x5D#8, 0xC7#8, 0x49#8, 0x33#8, 0x55#8, 0xFF#8]

/-- `ROM[i]` (R12, R211), for i below 128. -/
def romEntry (i : Nat) : Nat := (seedRom.getD i 0).toNat

/-- The ROM value for a limb: the ROM is indexed by bits 7:1 (R211). -/
def romSeed (v : Nat) : Nat := romEntry (v / 2 % 128)

/-- One single-limb Newton step (R212): s <- (s · ((2 − (v·s) mod 2^64) mod 2^64)) mod 2^64. -/
def seedStep (v s : Nat) : Nat := mulLow 64 s (subFromTwo 64 (mulLow 64 v s))

/-- The value after `i` single-limb Newton steps from the ROM value (R212). -/
def seedAfter (v : Nat) : Nat → Nat
  | 0 => romSeed v
  | i + 1 => seedStep v (seedAfter v i)

/-- `SeedFull(v)` (R212): three Newton steps take the precision from 8 over 16 and 32 to 64 bits. -/
def seedFull (v : Nat) : Nat := seedAfter v 3

/-- SEED and SEED.8 (R213). Only limb 0 of the source is read; an even limb 0 ends with NOT_INVERTIBLE. -/
def execSeed (rd rs1 : Reg) (sel : Bool) (s : State) : Outcome :=
  s.withWidth fun k =>
    let v := (s.readLimb rs1 0).toNat
    if v % 2 = 0 then (s.afterSources [rs1] 1).fail .notInvertible
    else (s.afterSources [rs1] 1).succeed rd k (if sel then romSeed v else seedFull v)

end Sys2Proof.Machine
end

