-- ==== Sys2Proof/Machine/Invert.lean ====
section
/-! DEFINITION. The Newton–Hensel lifting driver: the sequencer's registers while an INV runs, its rounds, and the command INV
(R46, R230 to R237). -/

namespace Sys2Proof.Machine

/-- The sequencer's registers (R46): the input latch `a`, the single-limb seed `s`, the candidate `y`, the precision marker `p`,
and the temporaries `t` and `u`, which hold nothing before the first round. They exist only while Complete runs, which is one
atomic step (R162), and the spec gives them no value outside it (R46, I22), so State does not hold them (log entry 5). -/
structure Sequencer where
  a  : Nat
  s  : Nat
  y  : Nat
  p  : Nat
  tu : Option (Nat × Nat)
deriving DecidableEq, Repr

/-- The sequencer before its first round (R232): y is the zero-extended 64-bit seed of the low limb, p is 64. -/
def Sequencer.start (a : Nat) : Sequencer :=
  { a := a, s := seedFull (a % 2 ^ 64), y := seedFull (a % 2 ^ 64), p := p0Lift, tu := none }

/-- One round, the four-step update at full width n (R233). -/
def Sequencer.round (n : Nat) (q : Sequencer) : Sequencer :=
  let t := mulLow n q.a q.y
  let u := subFromTwo n t
  { q with tu := some (t, u), y := mulLow n q.y u, p := min (2 * q.p) n }

/-- Rounds while p < n (R230, R234), at most `fuel` of them. -/
def Sequencer.lift (n : Nat) : Nat → Sequencer → Sequencer
  | 0, q => q
  | fuel + 1, q => if q.p < n then Sequencer.lift n fuel (q.round n) else q

/-- The sequencer after `i` rounds (R235), for a white-box reading of the datapath. -/
def Sequencer.after (n a : Nat) : Nat → Sequencer
  | 0 => Sequencer.start a
  | i + 1 => (Sequencer.after n a i).round n

/-- The value INV computes for an odd n-bit `a` at n = 64·k (R230). k rounds always suffice, since p doubles from 64 to n. -/
def invert (k a : Nat) : Nat := (Sequencer.lift (64 * k) k (Sequencer.start a)).y

/-- INV (R230). The source is latched whole (only limbs 0 to k−1), then an even value ends with NOT_INVERTIBLE (R231). -/
def execInv (rd rs1 : Reg) (s : State) : Outcome :=
  s.withWidth fun k =>
    let a := s.source rs1 k
    if a % 2 = 0 then (s.afterSources [rs1] k).fail .notInvertible else (s.afterSources [rs1] k).succeed rd k (invert k a)

end Sys2Proof.Machine
end

