-- ==== Sys2Proof/Machine/Dispatch.lean ====
section
/-! DEFINITION. The meaning of a decoded command: what Complete does with it (R162, R163), one arm per constructor. -/

namespace Sys2Proof.Machine

-- Each arm is the command's own meaning, at the Complete step of phase EXEC.
def exec (i : Instr) (s : State) : Host.Outcome State Fault Refusal :=
  match i with
  | .nop => Sys2Proof.Machine.execNop s
  | .addm rd rs1 rs2 => Sys2Proof.Machine.execAddm rd rs1 rs2 s
  | .subm rd rs1 rs2 => Sys2Proof.Machine.execSubm rd rs1 rs2 s
  | .mullo rd rs1 rs2 => Sys2Proof.Machine.execMullo rd rs1 rs2 s
  | .sub2 rd rs1 => Sys2Proof.Machine.execSub2 rd rs1 s
  | .seed rd rs1 sel => Sys2Proof.Machine.execSeed rd rs1 sel s
  | .inv rd rs1 => Sys2Proof.Machine.execInv rd rs1 s

end Sys2Proof.Machine
end

