-- ==== Sys2Proof/Machine/Flags.lean ====
section
/-! DEFINITION. The control and status registers as the host reads and writes them (R36 to R44), and the interrupt level.
The CORE has no arithmetic flags (R35): STATUS is its only condition state. -/

namespace Sys2Proof.Machine

/-- STATUS.BUSY: 1 exactly in phase EXEC (R39, R45). -/
def State.busy (s : State) : Bool :=
  match s.phase with
  | .idle => false
  | .exec _ _ => true

/-- The `irq` output: CTRL.IE AND STATUS.DONE (R48). -/
def State.irq (s : State) : Bool := s.ie && s.done

/-- What CAPS reads as (R41): KMAX in bits 15:0, NREG in 23:16, LIMBW in 31:24, SEEDW in 39:32. -/
def State.capsWord (s : State) : Word :=
  BitVec.ofNat 64 (s.cfg.kmax % 2 ^ 16 + nreg * 2 ^ 16 + limbW * 2 ^ 24 + seedW * 2 ^ 32)

/-- What CTRL reads as (R37): IE in bit 1; SRST reads 0. -/
def State.ctrlWord (s : State) : Word := BitVec.ofNat 64 (s.ie.toNat * 2 ^ 1)

/-- What STATUS reads as (R39): BUSY in bit 0, DONE in bit 1, ERR in bits 7:4, OVR in bit 8, IRQ in bit 9. -/
def State.statusWord (s : State) : Word :=
  BitVec.ofNat 64 (s.busy.toNat + s.done.toNat * 2 ^ 1 + s.err.code * 2 ^ 4 + s.ovr.toNat * 2 ^ 8 + s.irq.toNat * 2 ^ 9)

/-- What WIDTH reads as (R42): K in bits 15:0. -/
def State.widthWord (s : State) : Word := s.width.setWidth 64

/-- A write to CTRL (R38): with SRST = 1 a soft reset, which leaves IE = 0; otherwise IE takes bit 1. -/
def State.writeCtrl (s : State) (v : Word) : State :=
  if v.getLsbD 0 then s.softReset else { s with ie := v.getLsbD 1 }

/-- A write to STATUS (R40): DONE and OVR are cleared where the written bit is 1; nothing else is writable. -/
def State.writeStatus (s : State) (v : Word) : State :=
  { s with done := s.done && !v.getLsbD 1, ovr := s.ovr && !v.getLsbD 8 }

/-- A write to WIDTH while BUSY = 0 (R42): K takes bits 15:0 unchecked. -/
def State.writeWidth (s : State) (v : Word) : State := { s with width := v.setWidth 16 }

/-- The overrun flag set by a refused access (R90, R265). -/
def State.overrun (s : State) : State := { s with ovr := true }

end Sys2Proof.Machine
end

