-- ==== Sys2Proof/Machine/HostBus.lean ====
section
/-! DEFINITION. The host window: which accesses are admitted (R82), where an offset leads (R84, R86), and what a read or a
write does there, while a command runs and while none does (R85, R86, R90, R91). -/

namespace Sys2Proof.Machine

/-- What a window offset reaches (R84). -/
inductive Target where
  | caps
  | ctrl
  | status
  | width
  | cmd
  | limb (r : Reg) (j : Nat)
  | reserved
deriving DecidableEq, Repr

/-- The address map (R84, R86). Operand offsets with j ≥ KMAX are RAZ/WI like reserved ones. -/
def targetOf (c : Config) (off : Nat) : Target :=
  if off = 0x00000 then .caps
  else if off = 0x00008 then .ctrl
  else if off = 0x00010 then .status
  else if off = 0x00018 then .width
  else if off = 0x00020 then .cmd
  else if 0x10000 ≤ off then
    if off / 8 % 512 < c.kmax then .limb (Fin.ofNat 16 (off / 0x1000 % 16)) (off / 8 % 512) else .reserved
  else .reserved

/-- The byte offset of an access. -/
def Access.off : Access → Nat
  | .read off _ => off
  | .write off _ _ => off

/-- The size in bytes of an access. -/
def Access.size : Access → Nat
  | .read _ size => size
  | .write _ size _ => size

/-- The three conditions on which an access is admitted (R82). -/
def Access.admitted (a : Access) : Bool := decide (a.size = 8 ∧ a.off % 8 = 0 ∧ a.off < windowSize)

/-- An admitted read (R85, R86, R90): the state after it and the data. While BUSY = 1 a limb read returns 0 and sets OVR, the only
side effect a read has. Repeating a read gives the same data and state, of an unwritten limb too (R91, log entry 7). -/
def State.readTarget (s : State) : Target → State × Word
  | .caps => (s, s.capsWord)
  | .ctrl => (s, s.ctrlWord)
  | .status => (s, s.statusWord)
  | .width => (s, s.widthWord)
  | .cmd => (s, s.lastcmd)
  | .limb r j => if s.busy then (s.overrun, 0) else (s, s.readLimb r j)
  | .reserved => (s, 0)

/-- An admitted write (R38, R40, R41, R42, R44, R85, R86, R90). While BUSY = 1 a write to WIDTH, to CMD or to a limb is dropped
and sets OVR. A CMD write while BUSY = 0 accepts a command, whatever the word (R160). -/
def State.writeTarget (s : State) (v : Word) : Target → State
  | .caps => s
  | .ctrl => s.writeCtrl v
  | .status => s.writeStatus v
  | .width => if s.busy then s.overrun else s.writeWidth v
  | .cmd => if s.busy then s.overrun else s.accept v
  | .limb r j => if s.busy then s.overrun else s.setLimb r j v
  | .reserved => s

/-- One transaction on the host port: the state after it and the CORE's answer. An access that is not admitted gets BERR and
changes nothing (R82, R266); every admitted access gets OKAY (R83). -/
def State.respond (s : State) (a : Access) : State × Response :=
  if !a.admitted then (s, .berr)
  else match a with
    | .read off _ => ((s.readTarget (targetOf s.cfg off)).1, .readOkay (s.readTarget (targetOf s.cfg off)).2)
    | .write off _ v => (s.writeTarget v (targetOf s.cfg off), .writeOkay)

/-- A host access as a step: the answer appears on the host port. BERR is a fault of the host program (R82, I16). -/
def hostAccess (a : Access) (s : State) : Outcome :=
  match (s.respond a).2 with
  | .berr => .fault .busError
  | r => .next { (s.respond a).1 with resp := some r }

end Sys2Proof.Machine
end

