-- ==== Sys2Proof/Machine/Engine.lean ====
section
/-! DEFINITION. The engine's turn, and what each of the moves does (R93): the command word latched at accept is decoded when the
command executes, not before (R125, R162). -/

namespace Sys2Proof.Machine

/-- The engine's turn. In EXEC it is Complete (R162): the latched word is decoded (R163), an ILLEGAL word ends with that code and
writes no big register (R125, R261), a command has its meaning. In IDLE the engine does nothing (R279). -/
def engineTurn (s : State) : Outcome :=
  match s.phase with
  | .idle => .next s
  | .exec w _ =>
    match decode w with
    | none => s.fail .illegal
    | some i => exec i s

/-- What one move does (R93). -/
def takeInput (i : Input) (s : State) : Outcome :=
  match i with
  | .access a => hostAccess a s
  | .engineTurn => engineTurn s
  | .hardReset => .next s.hardReset

/-- The state with a command word accepted and the engine's turn next. -/
def State.readyToComplete (s : State) (w : Word) : State :=
  { s.accept w with inputs := .engineTurn :: s.inputs }

end Sys2Proof.Machine
end

