-- ==== Sys2Proof/Machine/Step.lean ====
section
/-! DEFINITION. One step of the CORE: the next host access, engine turn or reset, in the one order in which they are taken (R93). -/

namespace Sys2Proof.Machine

/-- One step. The next move is taken off the list; when the list is empty only the engine has a step, so a command in flight
completes (R162: it must eventually) and an idle CORE stays as it is (R279). -/
def step (s : State) : Host.Outcome State Fault Refusal :=
  match s.inputs with
  | [] => engineTurn { s with resp := none }
  | i :: rest => takeInput i { s with inputs := rest, resp := none }

/-- The state in which the next step completes the command word `w` of `nbits` bits (log entry 4). The CORE fetches nothing
(R50, R97): a command word comes to run by being accepted, and then the engine's turn comes. -/
def State.withFetchWord (s : State) (nbits w : Nat) : State :=
  s.readyToComplete (BitVec.ofNat 64 (w % 2 ^ nbits))

end Sys2Proof.Machine
end

