-- ==== Sys2Proof/Safety.lean ====
section
/-! DEFINITION. What claims about the CORE speak of: the invariant that every step keeps, the end of a run, and a run without
a fault. -/

namespace Sys2Proof.Machine

/-- Every byte of the store is a byte of a limb j < KMAX of one of B0..B15 (R31, R84, R86). -/
abbrev State.storeInside (s : State) : Prop :=
  ∀ c ∈ s.store, 0x10000 ≤ c.1 ∧ c.1 < 0x20000 ∧ c.1 % 0x1000 / 8 < s.cfg.kmax

/-- Limbs are written whole (R89): where one byte of a limb holds a value, all eight do. -/
abbrev State.limbsWhole (s : State) : Prop :=
  ∀ c ∈ s.store, ∀ i < 8, (s.store.readByte (c.1 / 8 * 8 + i)).isSome = true

/-- While a command executes, DONE and ERR are 0 (R39, R160), and LASTCMD and WIDTH.K still hold what was latched at accept,
because CMD and WIDTH writes are refused (R45, R90). -/
def State.latchesHold (s : State) : Prop :=
  match s.phase with
  | .idle => True
  | .exec w kl => s.done = false ∧ s.err = .ok ∧ s.lastcmd = w ∧ s.width = kl

/-- The invariant of the CORE's state. -/
structure State.Inv (s : State) : Prop where
  cfgWf       : s.cfg.wf
  storeWf     : s.store.wf
  storeInside : s.storeInside
  limbsWhole  : s.limbsWhole
  latchesHold : s.latchesHold

/-- The end of a run (R168): the host has made its last access and the phase is IDLE. That the other listed moves, a hard reset or
an engine's turn in IDLE, have been taken too is a DESIGN CHOICE: R168 names only the host's last access (log entry 14). -/
abbrev State.final (s : State) : Prop := s.inputs = [] ∧ s.phase = .idle

/-- No number of steps from this state ends in a fault. -/
def State.faultFree (s : State) : Prop :=
  ∀ (n : Nat) (f : Fault), Host.Core.run Sys2Proof.core n s ≠ .fault f

/-- Big register `rd` holds exactly the n-bit result `v`, zero-extended to KMAX limbs (R33, R165). -/
def State.holds (s : State) (rd : Reg) (k v : Nat) : Prop :=
  (∀ j < k, s.limb rd j = some (BitVec.ofNat 64 (v / 2 ^ (64 * j) % 2 ^ 64))) ∧
  (∀ j, k ≤ j → j < s.cfg.kmax → s.limb rd j = some 0) ∧
  s.big rd k = some v

/-- No byte of the operand store differs between two states, but for big register `rd`. -/
def State.sameStoreExcept (s t : State) (rd : Reg) : Prop :=
  ∀ x, ¬ (limbOffset rd 0 ≤ x ∧ x < limbOffset rd 0 + 8 * s.cfg.kmax) → t.store.readByte x = s.store.readByte x

/-- Complete changes nothing but the operand store, ERR, DONE and the phase, with STATUS.BUSY (R162). Of the model's own State.free,
which a command that reads an unwritten limb moves (log entry 1), it says nothing. -/
def State.completesWith (s t : State) (e : ErrCode) : Prop :=
  t.err = e ∧ t.done = true ∧ t.phase = .idle ∧ t.cfg = s.cfg ∧ t.ie = s.ie ∧ t.ovr = s.ovr ∧ t.width = s.width ∧
  t.lastcmd = s.lastcmd ∧ t.inputs = s.inputs ∧ t.resp = s.resp

/-- A successful command: the result stands in `rd`, every byte outside `rd`'s slot is as it was, and so is every other part of
the spec's state that Complete does not name (R162, R165). -/
def State.writesResult (s t : State) (rd : Reg) (k v : Nat) : Prop :=
  t.holds rd k v ∧ s.completesWith t .ok ∧ s.sameStoreExcept t rd

/-- A command that ends with an error, or has no result: every byte of the operand store is as it was (R263). -/
def State.writesNothing (s t : State) (e : ErrCode) : Prop :=
  s.completesWith t e ∧ ∀ x, t.store.readByte x = s.store.readByte x

/-- The width latched at accept passes the check of R163, and is k. -/
def State.runsAt (s : State) (k : Nat) : Prop :=
  (∃ w kl, s.phase = .exec w kl ∧ kl.toNat = k) ∧ 1 ≤ k ∧ k ≤ s.cfg.kmax

/-- The width latched at accept fails the check of R163: it is 0 or above KMAX. -/
def State.badWidth (s : State) : Prop :=
  ∃ w kl, s.phase = .exec w kl ∧ (kl.toNat = 0 ∨ s.cfg.kmax < kl.toNat)

/-- The command, at the width latched at accept, reads a limb that nothing has written: R267's case of a command (log entry 1). -/
def State.readsUnwritten (s : State) (i : Instr) : Prop :=
  ∃ k, s.runsAt k ∧ ∃ r ∈ i.sources, ∃ j < i.limbsRead k, s.limb r j = none

/-- The candidate inverse after `i` NEWTON macros of a host that starts from the 8-bit seed (R129, R241): each macro is
`MULLO t, x, y`, `SUB2 t, t`, `MULLO y, y, t` at limb count k. -/
def newtonChain (k a : Nat) : Nat → Nat
  | 0 => romSeed a
  | i + 1 => mulLow (64 * k) (newtonChain k a i) (subFromTwo (64 * k) (mulLow (64 * k) a (newtonChain k a i)))

/-- The host access that is the next move, if there is one. -/
def State.nextAccess (s : State) : Option Access :=
  match s.inputs with
  | .access a :: _ => some a
  | _ => none

/-- The next step is the engine's: its turn is next, or no move is left (R162). -/
def State.engineNext (s : State) : Prop := s.inputs = [] ∨ ∃ rest, s.inputs = .engineTurn :: rest

/-- An access that BUSY = 1 has refused (R90): a write to WIDTH, CMD or a limb, or a read of a limb. -/
def refusedWhenBusy (c : Config) (a : Access) : Prop :=
  a.admitted = true ∧
    match a, targetOf c a.off with
    | .write _ _ _, .width => True
    | .write _ _ _, .cmd => True
    | _, .limb _ _ => True
    | _, _ => False

end Sys2Proof.Machine
end

