-- ==== Sys2Proof/Certificates/Slice0/Obligations.lean ====
section
/-! DEFINITION. The statements for the provers, each with the rule of spec/ it formalises. -/

open Sys2Proof Sys2Proof.Machine

/-! ### Encoding -/

/-- R128: decoding the word of any command gives the command back, with every operand. -/
def Obligations.DecodeEncodeRoundTrip : Prop := ∀ i : Instr, decode (encode i) = some i

/-- R127: a legal command has exactly one encoding, and two different legal words decode to different commands. -/
def Obligations.EachCommandHasOneWord : Prop :=
  (∀ i : Instr, ∃ w : Word, decode w = some i ∧ ∀ w', decode w' = some i → w' = w) ∧
  (∀ w w' : Word, decode w ≠ none → w ≠ w' → decode w ≠ decode w')

/-- R122, R126: a word is ILLEGAL exactly when its opcode is reserved or a must-be-zero field of its format is not zero. -/
def Obligations.IllegalWordsAreTheMalformedOnes : Prop :=
  ∀ w : Word, decode w = none ↔ (Fields.ofWord w).wellFormed = false

/-- R128, the encoding column of its table. -/
def Obligations.EncodeGivesTheAssemblerWords : Prop :=
  encode .nop = 0 ∧ ∀ d a b : Reg,
    (encode (.addm d a b)).toNat = 0x01 + d.val * 2 ^ 8 + a.val * 2 ^ 12 + b.val * 2 ^ 16 ∧
    (encode (.subm d a b)).toNat = 0x02 + d.val * 2 ^ 8 + a.val * 2 ^ 12 + b.val * 2 ^ 16 ∧
    (encode (.mullo d a b)).toNat = 0x03 + d.val * 2 ^ 8 + a.val * 2 ^ 12 + b.val * 2 ^ 16 ∧
    (encode (.sub2 d a)).toNat = 0x04 + d.val * 2 ^ 8 + a.val * 2 ^ 12 ∧
    (encode (.seed d a false)).toNat = 0x05 + d.val * 2 ^ 8 + a.val * 2 ^ 12 ∧
    (encode (.seed d a true)).toNat = 0x05 + d.val * 2 ^ 8 + a.val * 2 ^ 12 + 2 ^ 20 ∧
    (encode (.inv d a)).toNat = 0x06 + d.val * 2 ^ 8 + a.val * 2 ^ 12

/-- Words of 95_test_vectors.md section 2.1, one of each family and some ILLEGAL ones. -/
def Obligations.SpecWordsDecode : Prop :=
  decode 0x0000000000000000#64 = some .nop ∧ decode 0x0000000000021301#64 = some (.addm 3 1 2) ∧
  decode 0x0000000000021302#64 = some (.subm 3 1 2) ∧ decode 0x0000000000021303#64 = some (.mullo 3 1 2) ∧
  decode 0x0000000000001204#64 = some (.sub2 2 1) ∧ decode 0x0000000000101205#64 = some (.seed 2 1 true) ∧
  decode 0x0000000000000106#64 = some (.inv 1 0) ∧ decode 0x0000000000121301#64 = none ∧
  decode 0x0000000010000001#64 = none ∧ decode 0x0000000000000007#64 = none

/-! ### Reset -/

/-- R300 with R51's hard-reset column: from any state, in flight or not, every CSR field is 0 but the constant CAPS, the phase is
IDLE, the interrupt is low and masked, and no limb of the operand store holds a value. That a reset is a move of its own in the
order of accesses is the model's choice (log entries 3 and 9). -/
def Obligations.HardResetSetsEveryField : Prop :=
  ∀ (s : State) (rest : List Input), s.inputs = .hardReset :: rest →
    ∃ t, step s = .next t ∧ t.phase = .idle ∧ t.ctrlWord = 0 ∧ t.statusWord = 0 ∧ t.widthWord = 0 ∧ t.lastcmd = 0 ∧
      t.capsWord = s.capsWord ∧ t.irq = false ∧ t.ie = false ∧ ∀ (r : Reg) (j : Nat), t.limb r j = none

/-- R302: a CTRL write with bit 0 = 1, at any time, drops a command in flight, resets the registers and keeps every byte of the
operand store. -/
def Obligations.SoftResetKeepsTheOperandStore : Prop :=
  ∀ (s : State) (v : Word), v.getLsbD 0 = true →
    ∃ t, s.respond (.write 0x008 8 v) = (t, .writeOkay) ∧ t.phase = .idle ∧ t.busy = false ∧ t.done = false ∧
      t.err = .ok ∧ t.ovr = false ∧ t.ie = false ∧ t.width = 0 ∧ t.lastcmd = 0 ∧
      (∀ (r : Reg) (j : Nat), t.limb r j = s.limb r j) ∧ ∀ x, t.store.readByte x = s.store.readByte x

/-! ### The host window -/

/-- R82: an access of another size, misaligned or outside the window gets BERR and changes no state of the CORE, and the model
treats it as a fault of the host program. -/
def Obligations.BadAccessGetsBusError : Prop :=
  ∀ (s : State) (a : Access), ¬ (a.size = 8 ∧ a.off % 8 = 0 ∧ a.off < 0x20000) →
    s.respond a = (s, .berr) ∧ ∀ rest, s.inputs = .access a :: rest → step s = .fault .busError

/-- R83: every admitted access gets OKAY, a read with data and a write without, and only R82 produces BERR. -/
def Obligations.AdmittedAccessGetsOkay : Prop :=
  ∀ (s : State) (a : Access),
    ((s.respond a).2 = .berr ↔ a.admitted = false) ∧
    (a.admitted = true →
      (∀ off size, a = .read off size → ∃ d, (s.respond a).2 = .readOkay d) ∧
      (∀ off size v, a = .write off size v → (s.respond a).2 = .writeOkay))

/-- R41: CAPS reads its four fields, constant, and a write to it changes nothing. -/
def Obligations.CapsDescribesTheInstance : Prop :=
  ∀ s : State, s.cfg.wf →
    (∃ d : Word, s.respond (.read 0x000 8) = (s, .readOkay d) ∧ d.toNat % 2 ^ 16 = s.cfg.kmax ∧
      d.toNat / 2 ^ 16 % 2 ^ 8 = 16 ∧ d.toNat / 2 ^ 24 % 2 ^ 8 = 64 ∧ d.toNat / 2 ^ 32 % 2 ^ 8 = 8 ∧
      d.toNat / 2 ^ 40 = 0 ∧ (s.cfg.kmax = 64 → d = 0x0000000840100040#64)) ∧
    ∀ v : Word, s.respond (.write 0x000 8 v) = (s, .writeOkay)

/-- R37, R38: CTRL reads IE in bit 1 and 0 elsewhere; a write with SRST = 1 is a soft reset whose IE bit is ignored, and any other
write sets IE to bit 1 and nothing else. Both at any time. -/
def Obligations.CtrlWriteResetsOrEnables : Prop :=
  ∀ (s : State) (v : Word),
    (∃ d : Word, s.respond (.read 0x008 8) = (s, .readOkay d) ∧ ∀ b < 64, d.getLsbD b = (b == 1 && s.ie)) ∧
    (v.getLsbD 0 = true → s.respond (.write 0x008 8 v) = (s.softReset, .writeOkay) ∧ s.softReset.ie = false) ∧
    (v.getLsbD 0 = false → s.respond (.write 0x008 8 v) = ({ s with ie := v.getLsbD 1 }, .writeOkay))

/-- R39, R48: every bit of what STATUS reads as, at any time; its IRQ bit is the level of `irq`. -/
def Obligations.StatusReadsItsFields : Prop :=
  ∀ s : State, ∃ d : Word, s.respond (.read 0x010 8) = (s, .readOkay d) ∧
    d.getLsbD 0 = s.busy ∧ d.getLsbD 1 = s.done ∧ d.toNat / 2 ^ 2 % 2 ^ 2 = 0 ∧ d.toNat / 2 ^ 4 % 2 ^ 4 = s.err.code ∧
    d.getLsbD 8 = s.ovr ∧ d.getLsbD 9 = (s.ie && s.done) ∧ d.getLsbD 9 = s.irq ∧ d.toNat / 2 ^ 10 = 0

/-- R40: a STATUS write clears DONE and OVR where the written bit is 1, at any time, and changes nothing else. -/
def Obligations.StatusWriteOnlyClears : Prop :=
  ∀ (s : State) (v : Word), ∃ t, s.respond (.write 0x010 8 v) = (t, .writeOkay) ∧
    (v.getLsbD 1 = true → t.done = false) ∧ (v.getLsbD 1 = false → t.done = s.done) ∧
    (v.getLsbD 8 = true → t.ovr = false) ∧ (v.getLsbD 8 = false → t.ovr = s.ovr) ∧
    t = { s with done := t.done, ovr := t.ovr }

/-- R42: a WIDTH write while BUSY = 0 sets K to bits 15:0, whatever their value, and reads back zero-extended; while BUSY = 1 it is
refused. -/
def Obligations.WidthWriteStoresLowBits : Prop :=
  ∀ (s : State) (v : Word),
    (s.busy = false → ∃ t, s.respond (.write 0x018 8 v) = (t, .writeOkay) ∧ t.width.toNat = v.toNat % 2 ^ 16 ∧
      t = { s with width := t.width } ∧
      t.respond (.read 0x018 8) = (t, .readOkay (BitVec.ofNat 64 (v.toNat % 2 ^ 16)))) ∧
    (s.busy = true → s.respond (.write 0x018 8 v) = ({ s with ovr := true }, .writeOkay))

/-- R44, R160, R161: a CMD write while BUSY = 0 accepts any word; while BUSY = 1 it is dropped and sets OVR; a read returns LASTCMD. -/
def Obligations.CmdWriteAcceptsWhenIdle : Prop :=
  ∀ (s : State) (v : Word),
    (s.busy = false → ∃ t, s.respond (.write 0x020 8 v) = (t, .writeOkay) ∧ t.lastcmd = v ∧
      t.phase = .exec v s.width ∧ t.busy = true ∧ t.done = false ∧ t.err = .ok ∧ t.irq = false ∧
      t = { s with lastcmd := t.lastcmd, phase := t.phase, done := t.done, err := t.err } ∧
      t.respond (.read 0x020 8) = (t, .readOkay v)) ∧
    (s.busy = true → s.respond (.write 0x020 8 v) = ({ s with ovr := true }, .writeOkay)) ∧
    s.respond (.read 0x020 8) = (s, .readOkay s.lastcmd)

/-- R90: what each access does while BUSY = 1; and while BUSY = 0 every access has its normal effect and none sets OVR. -/
def Obligations.BusyAccessesAreRefused : Prop :=
  (∀ s : State, s.busy = true →
    s.respond (.read 0x000 8) = (s, .readOkay s.capsWord) ∧ s.respond (.read 0x008 8) = (s, .readOkay s.ctrlWord) ∧
    s.respond (.read 0x010 8) = (s, .readOkay s.statusWord) ∧
    s.respond (.read 0x018 8) = (s, .readOkay s.widthWord) ∧ s.respond (.read 0x020 8) = (s, .readOkay s.lastcmd) ∧
    (∀ v, s.respond (.write 0x008 8 v) = (s.writeCtrl v, .writeOkay)) ∧
    (∀ v, s.respond (.write 0x010 8 v) = (s.writeStatus v, .writeOkay)) ∧
    (∀ v, s.respond (.write 0x000 8 v) = (s, .writeOkay)) ∧
    (∀ v, s.respond (.write 0x018 8 v) = ({ s with ovr := true }, .writeOkay)) ∧
    (∀ v, s.respond (.write 0x020 8 v) = ({ s with ovr := true }, .writeOkay)) ∧
    (∀ (r : Reg) (j : Nat), j < 512 →
      (∀ v, s.respond (.write (0x10000 + 0x1000 * r.val + 8 * j) 8 v) =
        (if j < s.cfg.kmax then { s with ovr := true } else s, .writeOkay)) ∧
      s.respond (.read (0x10000 + 0x1000 * r.val + 8 * j) 8) =
        (if j < s.cfg.kmax then { s with ovr := true } else s, .readOkay 0)) ∧
    (∀ off, off % 8 = 0 → 0x28 ≤ off → off ≤ 0xFFFF →
      (∀ v, s.respond (.write off 8 v) = (s, .writeOkay)) ∧ s.respond (.read off 8) = (s, .readOkay 0))) ∧
  (∀ s : State, s.busy = false →
    s.respond (.read 0x000 8) = (s, .readOkay s.capsWord) ∧ s.respond (.read 0x008 8) = (s, .readOkay s.ctrlWord) ∧
    s.respond (.read 0x010 8) = (s, .readOkay s.statusWord) ∧
    s.respond (.read 0x018 8) = (s, .readOkay s.widthWord) ∧ s.respond (.read 0x020 8) = (s, .readOkay s.lastcmd) ∧
    (∀ v, s.respond (.write 0x000 8 v) = (s, .writeOkay)) ∧
    (∀ v, s.respond (.write 0x008 8 v) = (s.writeCtrl v, .writeOkay)) ∧
    (∀ v, s.respond (.write 0x010 8 v) = (s.writeStatus v, .writeOkay)) ∧
    (∀ v, s.respond (.write 0x018 8 v) = ({ s with width := v.setWidth 16 }, .writeOkay)) ∧
    (∀ v, s.respond (.write 0x020 8 v) = (s.accept v, .writeOkay)) ∧
    (∀ (r : Reg) (j : Nat), j < 512 →
      (∀ v, s.respond (.write (0x10000 + 0x1000 * r.val + 8 * j) 8 v) =
        (if j < s.cfg.kmax then s.setLimb r j v else s, .writeOkay)) ∧
      (∀ v, j < s.cfg.kmax → s.limb r j = some v →
        s.respond (.read (0x10000 + 0x1000 * r.val + 8 * j) 8) = (s, .readOkay v)) ∧
      (s.cfg.kmax ≤ j → s.respond (.read (0x10000 + 0x1000 * r.val + 8 * j) 8) = (s, .readOkay 0))) ∧
    (∀ off, off % 8 = 0 → 0x28 ≤ off → off ≤ 0xFFFF →
      (∀ v, s.respond (.write off 8 v) = (s, .writeOkay)) ∧ s.respond (.read off 8) = (s, .readOkay 0))) ∧
  (∀ (s t : State) (a : Access) (r : Response), s.busy = false → s.respond a = (t, r) → s.ovr = false → t.ovr = false)

/-- R85: at a reserved offset, and at an operand offset with j ≥ KMAX (R86), an aligned read returns 0 and a write has no effect,
whatever the value of BUSY. -/
def Obligations.ReservedOffsetsReadZero : Prop :=
  ∀ (s : State) (off : Nat), off % 8 = 0 →
    ((0x28 ≤ off ∧ off ≤ 0xFFFF) ∨ (0x10000 ≤ off ∧ off ≤ 0x1FFFF ∧ s.cfg.kmax ≤ off / 8 % 512)) →
    s.respond (.read off 8) = (s, .readOkay 0) ∧ ∀ v : Word, s.respond (.write off 8 v) = (s, .writeOkay)

/-- R86: while BUSY = 0 a write of limb j < KMAX of Br at offset 0x10000 + 0x1000·r + 8·j is read back there, and changes no other
limb and no other field. -/
def Obligations.LimbWriteIsReadBack : Prop :=
  ∀ (s : State) (r : Reg) (j : Nat) (v : Word), s.cfg.kmax ≤ 512 → j < s.cfg.kmax → s.busy = false →
    ∃ t, s.respond (.write (0x10000 + 0x1000 * r.val + 8 * j) 8 v) = (t, .writeOkay) ∧
      t.limb r j = some v ∧
      t.respond (.read (0x10000 + 0x1000 * r.val + 8 * j) 8) = (t, .readOkay v) ∧
      (∀ (r' : Reg) (j' : Nat), j' < s.cfg.kmax → (r' ≠ r ∨ j' ≠ j) → t.limb r' j' = s.limb r' j') ∧
      t = { s with store := t.store }

/-- R34, R86, R267, as far as the hardware goes: a host read of a limb that nothing has written gets some value that nothing fixes,
and one of a written limb returns it, both with no side effect (R91). That the value is a free value and the run goes on, where R34
has a model stop, is the model's choice: log entry 1 (DESIGN CHOICE). -/
def Obligations.UnwrittenLimbReadGetsFreeValue : Prop :=
  ∀ (s : State) (r : Reg) (j : Nat) (rest : List Input), s.cfg.kmax ≤ 512 → j < s.cfg.kmax → s.busy = false →
    s.inputs = .access (.read (0x10000 + 0x1000 * r.val + 8 * j) 8) :: rest →
    (s.limb r j = none → step s = .next { s with
      inputs := rest, resp := some (.readOkay (Config.freeLimb s.free (limbOffset r j))) }) ∧
    (∀ v, s.limb r j = some v → step s = .next { s with inputs := rest, resp := some (.readOkay v) })

/-- R88: a limb holds v exactly when byte lane m at its offset holds bits 8m+7 to 8m of v. -/
def Obligations.LimbBytesAreLittleEndian : Prop :=
  ∀ (s : State) (r : Reg) (j : Nat) (v : Word),
    s.limb r j = some v ↔ ∀ m < 8, s.store.readByte (0x10000 + 0x1000 * r.val + 8 * j + m) = some (v.extractLsb' (8 * m) 8)

/-- R11: x[i] at limb count k is the sum of its limbs j < k, each weighted 2^(64j). Where all have been written that is the value
it holds; a limb that nothing has written is read as a free value (log entry 1). -/
def Obligations.RegisterValueIsSumOfLimbs : Prop :=
  ∀ (s : State) (r : Reg) (k : Nat),
    (∀ f : Nat → Word, (∀ j < k, s.limb r j = some (f j)) →
      s.big r k = some (∑ j ∈ Finset.range k, (f j).toNat * 2 ^ (64 * j))) ∧
    ((∃ j < k, s.limb r j = none) → s.big r k = none) ∧
    (∀ v, s.big r k = some v → s.source r k = v) ∧
    s.source r k = ∑ j ∈ Finset.range k, (s.readLimb r j).toNat * 2 ^ (64 * j) ∧
    ∀ j, (∀ v, s.limb r j = some v → s.readLimb r j = v) ∧
      (s.limb r j = none → s.readLimb r j = Config.freeLimb s.free (limbOffset r j))

/-- R91 on reads: no read has a side effect, but that a limb read while BUSY = 1 sets OVR; and repeating any read, one of a limb
that nothing has written too, gives the same answer and the same state. -/
def Obligations.ReadsAreIdempotent : Prop :=
  ∀ (s t : State) (off size : Nat) (r : Response), s.respond (.read off size) = (t, r) →
    (t = s ∨ (s.busy = true ∧ (∃ b j, targetOf s.cfg off = .limb b j) ∧ t = { s with ovr := true })) ∧
    t.respond (.read off size) = (t, r)

/-! ### The command cycle -/

/-- R162, R163: on the engine's turn in EXEC the latched word is decoded and the step is the command's meaning, with the move taken
off and the host port silent (the list of moves and the port are the model's, log entry 3). The first clause, that a step with no
move left is Complete at once, is the model's form of R162's fairness (DESIGN CHOICE, log entry 10). -/
def Obligations.StepRunsTheDecodedCommand : Prop :=
  ∀ (s : State) (w : Word) (kl : BitVec 16) (i : Instr), s.phase = .exec w kl → decode w = some i →
    (s.inputs = [] → step s = exec i { s with resp := none }) ∧
    (∀ rest, s.inputs = .engineTurn :: rest → step s = exec i { s with inputs := rest, resp := none })

/-- R93: every other move is taken as it stands, and the engine's turn in IDLE does nothing (R279). The list of moves, the
answer's field and the parameters' field are the model's (log entries 2, 3 and 10). -/
def Obligations.StepTakesOneMove : Prop :=
  ∀ s : State,
    (∀ a rest, s.inputs = .access a :: rest → step s = hostAccess a { s with inputs := rest, resp := none }) ∧
    (s.phase = .idle → s.inputs = [] → step s = .next { s with resp := none }) ∧
    (∀ rest, s.phase = .idle → s.inputs = .engineTurn :: rest → step s = .next { s with inputs := rest, resp := none }) ∧
    (∀ t, step s = .next t → t.inputs = s.inputs.tail ∧ t.cfg = s.cfg)

/-- R125, R261: an ILLEGAL word completes with that code and writes no big register; the word stays readable as LASTCMD. -/
def Obligations.IllegalWordCompletesWithCode : Prop :=
  ∀ (s : State) (w : Word) (kl : BitVec 16), s.phase = .exec w kl → decode w = none →
    ∃ t, engineTurn s = .next t ∧ s.writesNothing t .illegal ∧ (s.Inv → t.respond (.read 0x020 8) = (t, .readOkay w))

/-- R43, R262: every command but NOP ends with INVALID_WIDTH at a latched width of 0 or above KMAX, whatever its operands hold,
written or not. -/
def Obligations.WidthIsCheckedBeforeOperands : Prop :=
  ∀ (i : Instr) (s : State), i ≠ .nop → s.badWidth → ∃ t, exec i s = .next t ∧ s.writesNothing t .invalidWidth

/-- R263: a command, legal or not, that completes with an error changes only ERR, DONE, BUSY and the phase: every byte of the store
is as it was. Of the model's own State.free this says nothing (FreeValuesRenewedOnlyBy does; log entry 1). -/
def Obligations.ErrorWritesNoRegister : Prop :=
  ∀ s t : State, s.busy = true → engineTurn s = .next t → t.err ≠ .ok → s.writesNothing t t.err

/-- R268: ILLEGAL before INVALID_WIDTH, which NOP does not check, before NOT_INVERTIBLE, for SEED and INV only. -/
def Obligations.ChecksRunInOrder : Prop :=
  ∀ (s : State) (w : Word) (kl : BitVec 16), s.phase = .exec w kl →
    (decode w = none → ∃ t, engineTurn s = .next t ∧ t.err = .illegal) ∧
    (∀ i, decode w = some i → i ≠ .nop → s.badWidth → ∃ t, engineTurn s = .next t ∧ t.err = .invalidWidth) ∧
    (decode w = some .nop → ∃ t, engineTurn s = .next t ∧ t.err = .ok) ∧
    (∀ i t, decode w = some i → engineTurn s = .next t → t.err = .notInvertible →
      ¬ s.badWidth ∧ ((∃ rd rs1 sel, i = .seed rd rs1 sel) ∨ ∃ rd rs1, i = .inv rd rs1)) ∧
    (∀ rd rs1 sel v, decode w = some (.seed rd rs1 sel) → ¬ s.badWidth → s.limb rs1 0 = some v → v.toNat % 2 = 0 →
      ∃ t, engineTurn s = .next t ∧ t.err = .notInvertible) ∧
    (∀ rd rs1 a, decode w = some (.inv rd rs1) → ¬ s.badWidth → s.big rs1 kl.toNat = some a → a % 2 = 0 →
      ∃ t, engineTurn s = .next t ∧ t.err = .notInvertible)

/-- R162: a completing command records ERR and DONE, leaves EXEC, changes no other register, and no byte outside the slot of its
destination register (R32); a command without a destination changes no byte. Of the model's own fields it keeps cfg, inputs and
resp; free moves when the command reads an unwritten limb (log entry 1), which FreeValuesRenewedOnlyBy states. -/
def Obligations.CompletionFrame : Prop :=
  ∀ (i : Instr) (s t : State), exec i s = .next t →
    s.completesWith t t.err ∧
    (∀ rd, i.dest = some rd → s.sameStoreExcept t rd) ∧
    (i.dest = none → ∀ x, t.store.readByte x = s.store.readByte x)

/-- R267, as far as the hardware goes: a command whose sources nothing has written runs on some value that nothing fixes. Every
command with sources, at every width that passes the check and whatever limbs have been written, completes with the result that the
limbs give as they are read (State.source, State.readLimb), an unwritten limb being a free value. R34 has a model stop there: log
entry 1 (DESIGN CHOICE). -/
def Obligations.EveryCommandRunsOnUnwrittenLimbs : Prop :=
  ∀ (s : State) (k : Nat) (rd rs1 rs2 : Reg), s.runsAt k →
    (∃ t, exec (.addm rd rs1 rs2) s = .next t ∧ s.writesResult t rd k (addMod (64 * k) (s.source rs1 k) (s.source rs2 k))) ∧
    (∃ t, exec (.subm rd rs1 rs2) s = .next t ∧ s.writesResult t rd k (subMod (64 * k) (s.source rs1 k) (s.source rs2 k))) ∧
    (∃ t, exec (.mullo rd rs1 rs2) s = .next t ∧ s.writesResult t rd k (mulLow (64 * k) (s.source rs1 k) (s.source rs2 k))) ∧
    (∃ t, exec (.sub2 rd rs1) s = .next t ∧ s.writesResult t rd k (subFromTwo (64 * k) (s.source rs1 k))) ∧
    (∀ sel, ∃ t, exec (.seed rd rs1 sel) s = .next t ∧
      ((s.readLimb rs1 0).toNat % 2 = 0 → s.writesNothing t .notInvertible) ∧
      ((s.readLimb rs1 0).toNat % 2 = 1 →
        s.writesResult t rd k (if sel then romSeed (s.readLimb rs1 0).toNat else seedFull (s.readLimb rs1 0).toNat))) ∧
    (∃ t, exec (.inv rd rs1) s = .next t ∧
      (s.source rs1 k % 2 = 0 → s.writesNothing t .notInvertible) ∧
      (s.source rs1 k % 2 = 1 → s.writesResult t rd k (invert k (s.source rs1 k))))

/-- R33, where those limbs have been written: only the low limbs of the sources decide a command's outcome: two states in which they
read alike, with the same width and parameters, end with the same code and the same destination. That a limb that nothing has
written, which R34 gives no value, counts as read alike where its free values are equal (as they are where both states leave it
unwritten with the same State.free) is the model's choice (log entry 1, DESIGN CHOICE), and the hardware need not agree there. -/
def Obligations.OnlyTheSourceLimbsDecide : Prop :=
  ∀ (i : Instr) (s s' t : State) (k : Nat), s.runsAt k → s'.phase = s.phase → s'.cfg = s.cfg →
    (∀ r ∈ i.sources, ∀ j < i.limbsRead k, s'.readLimb r j = s.readLimb r j) → exec i s = .next t →
    ∃ t', exec i s' = .next t' ∧ t'.err = t.err ∧
      (t.err = .ok → ∀ rd, i.dest = some rd → ∀ j < s.cfg.kmax, t'.limb rd j = t.limb rd j)

/-! ### The commands -/

/-- R167: NOP completes with ERR = 0 at every latched width and touches no big register. -/
def Obligations.NopCompletes : Prop :=
  decode 0 = some .nop ∧ (∀ w : Word, decode w = some .nop → w = 0) ∧
  ∀ (s : State) (w : Word) (kl : BitVec 16), s.phase = .exec w kl →
    ∃ t, exec .nop s = .next t ∧ s.writesNothing t .ok

/-- R183: the encoding of ADDM, its modular sum, what it writes and leaves, and the only error it can end with. -/
def Obligations.AddmWritesModularSum : Prop :=
  ∀ rd rs1 rs2 : Reg,
    decode (BitVec.ofNat 64 (0x01 + rd.val * 2 ^ 8 + rs1.val * 2 ^ 12 + rs2.val * 2 ^ 16)) = some (.addm rd rs1 rs2) ∧
    (∀ (s : State) (k a b : Nat), s.runsAt k → s.big rs1 k = some a → s.big rs2 k = some b →
      ∃ t, exec (.addm rd rs1 rs2) s = .next t ∧ s.writesResult t rd k ((a + b) % 2 ^ (64 * k))) ∧
    (∀ s t : State, exec (.addm rd rs1 rs2) s = .next t → t.err = .ok ∨ (t.err = .invalidWidth ∧ s.badWidth))

/-- R184: the same for SUBM: the first source minus the second, as the non-negative remainder. -/
def Obligations.SubmWritesModularDifference : Prop :=
  ∀ rd rs1 rs2 : Reg,
    decode (BitVec.ofNat 64 (0x02 + rd.val * 2 ^ 8 + rs1.val * 2 ^ 12 + rs2.val * 2 ^ 16)) = some (.subm rd rs1 rs2) ∧
    (∀ (s : State) (k a b : Nat), s.runsAt k → s.big rs1 k = some a → s.big rs2 k = some b →
      ∃ (t : State) (v : Nat), exec (.subm rd rs1 rs2) s = .next t ∧ s.writesResult t rd k v ∧
        (v : Int) = ((a : Int) - (b : Int)) % 2 ^ (64 * k)) ∧
    (∀ s t : State, exec (.subm rd rs1 rs2) s = .next t → t.err = .ok ∨ (t.err = .invalidWidth ∧ s.badWidth))

/-- R186: the same for MULLO: the low n bits of the product. -/
def Obligations.MulloWritesLowProduct : Prop :=
  ∀ rd rs1 rs2 : Reg,
    decode (BitVec.ofNat 64 (0x03 + rd.val * 2 ^ 8 + rs1.val * 2 ^ 12 + rs2.val * 2 ^ 16)) = some (.mullo rd rs1 rs2) ∧
    (∀ (s : State) (k a b : Nat), s.runsAt k → s.big rs1 k = some a → s.big rs2 k = some b →
      ∃ t, exec (.mullo rd rs1 rs2) s = .next t ∧ s.writesResult t rd k (a * b % 2 ^ (64 * k))) ∧
    (∀ s t : State, exec (.mullo rd rs1 rs2) s = .next t → t.err = .ok ∨ (t.err = .invalidWidth ∧ s.badWidth))

/-- R188: the same for SUB2: 2 minus the source, as the non-negative remainder. -/
def Obligations.Sub2WritesTwoMinusSource : Prop :=
  ∀ rd rs1 : Reg,
    decode (BitVec.ofNat 64 (0x04 + rd.val * 2 ^ 8 + rs1.val * 2 ^ 12)) = some (.sub2 rd rs1) ∧
    (∀ (s : State) (k a : Nat), s.runsAt k → s.big rs1 k = some a →
      ∃ (t : State) (v : Nat), exec (.sub2 rd rs1) s = .next t ∧ s.writesResult t rd k v ∧
        (v : Int) = (2 - (a : Int)) % 2 ^ (64 * k)) ∧
    (∀ s t : State, exec (.sub2 rd rs1) s = .next t → t.err = .ok ∨ (t.err = .invalidWidth ∧ s.badWidth))

/-- R213, R264: SEED and SEED.8: their encodings, the exact inverse of an odd limb 0 modulo 2^64 or 2^8, NOT_INVERTIBLE for an even
one with nothing written, and no other error. Nothing is assumed of the source's other limbs. -/
def Obligations.SeedWritesLimbInverse : Prop :=
  ∀ (rd rs1 : Reg) (sel : Bool),
    decode (BitVec.ofNat 64 (0x05 + rd.val * 2 ^ 8 + rs1.val * 2 ^ 12 + sel.toNat * 2 ^ 20)) = some (.seed rd rs1 sel) ∧
    (∀ (s : State) (k : Nat) (v : Word), s.runsAt k → s.limb rs1 0 = some v → v.toNat % 2 = 1 →
      ∃ (t : State) (y : Nat), exec (.seed rd rs1 sel) s = .next t ∧ s.writesResult t rd k y ∧
        (sel = true → y = romEntry (v.toNat / 2 % 128) ∧ y < 2 ^ 8 ∧ v.toNat * y % 2 ^ 8 = 1) ∧
        (sel = false → y = seedFull v.toNat ∧ y < 2 ^ 64 ∧ v.toNat * y % 2 ^ 64 = 1)) ∧
    (∀ (s : State) (k : Nat) (v : Word), s.runsAt k → s.limb rs1 0 = some v → v.toNat % 2 = 0 →
      ∃ t, exec (.seed rd rs1 sel) s = .next t ∧ s.writesNothing t .notInvertible) ∧
    (∀ s t : State, exec (.seed rd rs1 sel) s = .next t →
      t.err = .ok ∨ (t.err = .invalidWidth ∧ s.badWidth) ∨
        (t.err = .notInvertible ∧ ∀ v, s.limb rs1 0 = some v → v.toNat % 2 = 0))

/-- R230, R231, R264: INV: its encoding, the value of the last of R(k) rounds for an odd source, which is the inverse modulo 2^n,
NOT_INVERTIBLE for an even source with nothing written to rd, and no other error. -/
def Obligations.InvWritesModularInverse : Prop :=
  ∀ rd rs1 : Reg,
    decode (BitVec.ofNat 64 (0x06 + rd.val * 2 ^ 8 + rs1.val * 2 ^ 12)) = some (.inv rd rs1) ∧
    (∀ (s : State) (k a : Nat), s.runsAt k → s.big rs1 k = some a → a % 2 = 1 →
      ∃ (t : State) (y : Nat), exec (.inv rd rs1) s = .next t ∧ s.writesResult t rd k y ∧ y < 2 ^ (64 * k) ∧
        a * y % 2 ^ (64 * k) = 1 ∧ y = (Sequencer.after (64 * k) a (Nat.clog 2 k)).y) ∧
    (∀ (s : State) (k a : Nat), s.runsAt k → s.big rs1 k = some a → a % 2 = 0 →
      ∃ t, exec (.inv rd rs1) s = .next t ∧ s.writesNothing t .notInvertible) ∧
    (∀ s t : State, exec (.inv rd rs1) s = .next t →
      t.err = .ok ∨ (t.err = .invalidWidth ∧ s.badWidth) ∨
        (t.err = .notInvertible ∧ ∀ v, s.limb rs1 0 = some v → v.toNat % 2 = 0))

/-! ### The datapath -/

/-- R181: the adder's carry chain over k limbs is addition modulo 2^n. -/
def Obligations.AdderChainIsModularAddition : Prop :=
  ∀ as bs : List Word, as.length = bs.length →
    (addChain as bs 0).length = as.length ∧
    limbsValue (addChain as bs 0) = (limbsValue as + limbsValue bs) % 2 ^ (64 * as.length) ∧
    limbsValue (addChain as bs 0) = addMod (64 * as.length) (limbsValue as) (limbsValue bs)

/-- R182: the subtractor's borrow chain over k limbs is subtraction modulo 2^n. -/
def Obligations.SubtractorChainIsModularSubtraction : Prop :=
  ∀ as bs : List Word, as.length = bs.length →
    (subChain as bs 0).length = as.length ∧
    (limbsValue (subChain as bs 0) : Int) = ((limbsValue as : Int) - (limbsValue bs : Int)) % 2 ^ (64 * as.length) ∧
    limbsValue (subChain as bs 0) = subMod (64 * as.length) (limbsValue as) (limbsValue bs)

/-- R185: the low-word multiplier's limb products, truncated at limb k, are multiplication modulo 2^n. -/
def Obligations.LimbMultiplierIsLowProduct : Prop :=
  ∀ as bs : List Word, as.length = bs.length →
    (mulLimbs as bs).length = as.length ∧
    limbsValue (mulLimbs as bs) = limbsValue as * limbsValue bs % 2 ^ (64 * as.length) ∧
    limbsValue (mulLimbs as bs) = mulLow (64 * as.length) (limbsValue as) (limbsValue bs)

/-- R187: subtracting from two is complementing all n bits and adding 3, and the unit's limb chain computes it. -/
def Obligations.SubFromTwoIsComplementPlusThree : Prop :=
  (∀ k a : Nat, a < 2 ^ (64 * k) → subFromTwo (64 * k) a = ((2 ^ (64 * k) - 1 - a) + 3) % 2 ^ (64 * k)) ∧
  ∀ as : List Word, limbsValue (subFromTwoLimbs as) = subFromTwo (64 * as.length) (limbsValue as)

/-- R189: the identities of the kernel for all n-bit operands, and that low limbs do not depend on higher ones. -/
def Obligations.KernelLaws : Prop :=
  ∀ k a b c : Nat, a < 2 ^ (64 * k) → b < 2 ^ (64 * k) → c < 2 ^ (64 * k) →
    addMod (64 * k) a b = addMod (64 * k) b a ∧ mulLow (64 * k) a b = mulLow (64 * k) b a ∧
    addMod (64 * k) (addMod (64 * k) a b) c = addMod (64 * k) a (addMod (64 * k) b c) ∧
    mulLow (64 * k) (mulLow (64 * k) a b) c = mulLow (64 * k) a (mulLow (64 * k) b c) ∧
    mulLow (64 * k) a (addMod (64 * k) b c) = addMod (64 * k) (mulLow (64 * k) a b) (mulLow (64 * k) a c) ∧
    subMod (64 * k) a b = addMod (64 * k) a (subMod (64 * k) 0 b) ∧ subFromTwo (64 * k) a = subMod (64 * k) 2 a ∧
    mulLow (64 * k) a 1 = a ∧ addMod (64 * k) a 0 = a ∧
    ∀ j ≤ k,
      addMod (64 * k) a b % 2 ^ (64 * j) = addMod (64 * j) (a % 2 ^ (64 * j)) (b % 2 ^ (64 * j)) ∧
      subMod (64 * k) a b % 2 ^ (64 * j) = subMod (64 * j) (a % 2 ^ (64 * j)) (b % 2 ^ (64 * j)) ∧
      mulLow (64 * k) a b % 2 ^ (64 * j) = mulLow (64 * j) (a % 2 ^ (64 * j)) (b % 2 ^ (64 * j)) ∧
      subFromTwo (64 * k) a % 2 ^ (64 * j) = subFromTwo (64 * j) (a % 2 ^ (64 * j))

/-! ### The seed and the lifting -/

/-- R211: the ROM has 128 entries, and entry i is the inverse of 2i+1 modulo 2^8. -/
def Obligations.RomHoldsByteInverses : Prop :=
  seedRom.length = 128 ∧ ∀ i < 128, (2 * i + 1) * romEntry i % 256 = 1

/-- R212: after i single-limb Newton steps the value is correct modulo 2^(8·2^i), for i from 0 to 3. -/
def Obligations.SeedStepsDoubleThePrecision : Prop :=
  ∀ v : Nat, v < 2 ^ 64 → v % 2 = 1 →
    (∀ i ≤ 3, v * seedAfter v i % 2 ^ (8 * 2 ^ i) = 1 ∧ seedAfter v i < 2 ^ 64) ∧ seedFull v = seedAfter v 3

/-- R214: the laws of the seed. -/
def Obligations.SeedLaws : Prop :=
  (∀ i < 128, romEntry i % 2 = 1 ∧ romEntry ((romEntry i - 1) / 2) = 2 * i + 1) ∧
  romEntry 0 = 0x01 ∧ romEntry 127 = 0xFF ∧
  ∀ v : Nat, v < 2 ^ 64 → v % 2 = 1 →
    seedFull v % 2 ^ 8 = romEntry (v / 2 % 128) ∧ v * seedFull v % 2 ^ 64 = 1

/-- R234: INV's loop runs exactly ceil(log2 k) rounds, for every source alike, and stops with p = n; from p0 = 8 the count would be
three more. -/
def Obligations.RoundCountDependsOnWidthOnly : Prop :=
  ∀ k a : Nat, 1 ≤ k →
    Sequencer.lift (64 * k) k (Sequencer.start a) = Sequencer.after (64 * k) a (Nat.clog 2 k) ∧
    (Sequencer.after (64 * k) a (Nat.clog 2 k)).p = 64 * k ∧
    (∀ i < Nat.clog 2 k, (Sequencer.after (64 * k) a i).p = 64 * 2 ^ i ∧ 64 * 2 ^ i < 64 * k) ∧
    Nat.clog 2 1 = 0 ∧ Nat.clog 2 (64 * k / 8) = 3 + Nat.clog 2 k

/-- R236: at the top of every round, and after the last, a·y is 1 modulo 2^p. -/
def Obligations.PrecisionHoldsAtEveryRound : Prop :=
  ∀ k a : Nat, 1 ≤ k → a < 2 ^ (64 * k) → a % 2 = 1 → ∀ i : Nat,
    a * (Sequencer.after (64 * k) a i).y % 2 ^ (Sequencer.after (64 * k) a i).p = 1 ∧
    (Sequencer.after (64 * k) a i).p = min (64 * 2 ^ i) (64 * k) ∧
    (Sequencer.after (64 * k) a i).y < 2 ^ (64 * k)

/-- R237: the value INV computes for an odd a is the one n-bit y with a·y = 1 modulo 2^n. -/
def Obligations.InvertIsTheUniqueInverse : Prop :=
  ∀ k a : Nat, 1 ≤ k → a < 2 ^ (64 * k) → a % 2 = 1 →
    invert k a < 2 ^ (64 * k) ∧ mulLow (64 * k) a (invert k a) = 1 ∧
    ∀ y < 2 ^ (64 * k), mulLow (64 * k) a y = 1 → y = invert k a

/-- R240: the laws of inversion. -/
def Obligations.InversionLaws : Prop :=
  ∀ k a : Nat, 1 ≤ k → a < 2 ^ (64 * k) → a % 2 = 1 →
    invert k (invert k a) = a ∧ invert k a % 2 = 1 ∧ invert k 1 = 1 ∧ invert k (2 ^ (64 * k) - 1) = 2 ^ (64 * k) - 1 ∧
    invert k a % 2 ^ 64 = seedFull (a % 2 ^ 64) ∧
    ∀ j, 1 ≤ j → j ≤ k → invert k a % 2 ^ (64 * j) = invert j (a % 2 ^ (64 * j))

/-- R241, of the chain of values (newtonChain) and not of host steps: the seed of SEED.8 and ceil(log2(n/8)) NEWTON updates give the
value of INV. -/
def Obligations.HostDrivenChainEndsWithInv : Prop :=
  ∀ k a : Nat, 1 ≤ k → a < 2 ^ (64 * k) → a % 2 = 1 → newtonChain k a (Nat.clog 2 (8 * k)) = invert k a

/-! ### The whole machine -/

/-- Every step keeps the invariant: the store's canonical form, its bytes inside limbs j < KMAX and its limbs whole, and what holds
while a command executes. -/
def Obligations.StepKeepsInvariant : Prop := ∀ s t : State, s.Inv → step s = .next t → t.Inv

/-- The state after a hard reset of any instance meets the invariant, and State.reset is one. -/
def Obligations.ResetMeetsInvariant : Prop :=
  State.reset.Inv ∧ ∀ (c : Config) (n : Nat) (rest : List Input), c.wf → (State.hardResetOf c n rest).Inv

/-- R265: OVR is set only by an access that BUSY = 1 refuses, which changes nothing else, and stays until a STATUS write with bit 8
or a reset. The list that the access comes from, and the answer's field, are the model's (log entry 3). -/
def Obligations.OverrunIsSetByRefusalOnly : Prop :=
  ∀ s t : State, step s = .next t →
    (∀ a, s.nextAccess = some a → s.busy = true → refusedWhenBusy s.cfg a →
      t = { s with ovr := true, inputs := s.inputs.tail, resp := t.resp }) ∧
    (s.ovr = false → t.ovr = true → s.busy = true ∧ ∃ a, s.nextAccess = some a ∧ refusedWhenBusy s.cfg a) ∧
    (s.ovr = true → t.ovr = false →
      (∃ v : Word, s.nextAccess = some (.write 0x010 8 v) ∧ v.getLsbD 8 = true) ∨
      (∃ v : Word, s.nextAccess = some (.write 0x008 8 v) ∧ v.getLsbD 0 = true) ∨ ∃ rest, s.inputs = .hardReset :: rest)

/-- R270: `irq` rises only when a command completes with IE = 1 or IE is set while DONE = 1, and falls only by a STATUS write with
bit 1, a CTRL write without IE, an accept or a reset. -/
def Obligations.InterruptFollowsCompletion : Prop :=
  ∀ s t : State, step s = .next t →
    t.irq = (t.ie && t.done) ∧
    (s.irq = false → t.irq = true →
      (s.engineNext ∧ s.busy = true ∧ t.busy = false ∧ s.ie = true) ∨
      (s.done = true ∧ ∃ v : Word, s.nextAccess = some (.write 0x008 8 v) ∧ v.getLsbD 0 = false ∧ v.getLsbD 1 = true)) ∧
    (s.irq = true → t.irq = false →
      (∃ v : Word, s.nextAccess = some (.write 0x010 8 v) ∧ v.getLsbD 1 = true) ∨
      (∃ v : Word, s.nextAccess = some (.write 0x008 8 v) ∧ (v.getLsbD 0 = true ∨ v.getLsbD 1 = false)) ∨
      (s.busy = false ∧ ∃ v : Word, s.nextAccess = some (.write 0x020 8 v)) ∨ ∃ rest, s.inputs = .hardReset :: rest)

/-- A byte of the operand store changes only by a host write of its limb while BUSY = 0, by a successful completion whose
destination holds it, or by a hard reset. -/
def Obligations.OperandStoreChangesOnlyBy : Prop :=
  ∀ (s t : State) (x : Nat), step s = .next t → t.store.readByte x ≠ s.store.readByte x →
    (s.busy = false ∧ ∃ (off : Nat) (v : Word), s.nextAccess = some (.write off 8 v) ∧ off ≤ x ∧ x < off + 8 ∧
      ∃ r j, targetOf s.cfg off = .limb r j) ∨
    (s.engineNext ∧ t.err = .ok ∧ ∃ w kl i rd, s.phase = .exec w kl ∧ decode w = some i ∧ i.dest = some rd ∧
      limbOffset rd 0 ≤ x ∧ x < limbOffset rd 0 + 8 * s.cfg.kmax) ∨
    ∃ rest, s.inputs = .hardReset :: rest

/-- The one way a step of this model stops: an access that is not admitted (R82). No step refuses. That no command stops, and no
read of a limb that nothing has written, is the model's choice (log entry 1, DESIGN CHOICE): R34, R86, R164 and R267 have a model
fault there. The fault's name is the model's (log entry 8). -/
def Obligations.StepStopsOnlyWhen : Prop :=
  ∀ s : State,
    (∀ f, step s = .fault f → f = .busError ∧ ∃ a, s.nextAccess = some a ∧ a.admitted = false) ∧
    (∀ m, step s ≠ .refused m) ∧
    ∀ (i : Instr) (w : Word) (kl : BitVec 16), s.phase = .exec w kl → ∃ t, exec i s = .next t

/-- R162, R168: when the listed moves are over, one more step completes whatever is in flight, so a run of that length that meets no
fault has ended: nothing is waiting and the phase is IDLE. That a run has ended only when every listed move is taken is the model's
choice (log entry 14). That an empty list lets the engine complete at once is the model's form of
R162's fairness (log entries 3 and 10). -/
def Obligations.RunEndsIdle : Prop :=
  ∀ s t : State, Host.Core.run Sys2Proof.core (s.inputs.length + 1) s = .next t → t.final

/-- R93 with R83: an admitted access is a step that does what the transaction does and shows its answer. The list that the access
comes from, and the answer's field, are the model's (log entry 3). -/
def Obligations.AdmittedAccessIsAStep : Prop :=
  ∀ (s : State) (a : Access) (rest : List Input), s.inputs = .access a :: rest → a.admitted = true →
    step s = .next { (s.respond a).1 with inputs := rest, resp := some (s.respond a).2 }

/-- The free values that unwritten limbs are read as are renewed by a command that reads such a limb and by a hard reset, and by no
other step; a host read keeps them (R91). The count is the model's own (log entry 1, DESIGN CHOICE). -/
def Obligations.FreeValuesRenewedOnlyBy : Prop :=
  (∀ (i : Instr) (s t : State), exec i s = .next t →
    (s.readsUnwritten i → t.free = s.free + 1) ∧ (¬ s.readsUnwritten i → t.free = s.free)) ∧
  ∀ s t : State, step s = .next t →
    (∀ rest, s.inputs = .hardReset :: rest → t.free = s.free + 1) ∧
    (t.free = s.free ∨ (t.free = s.free + 1 ∧
      ((∃ rest, s.inputs = .hardReset :: rest) ∨
        (s.engineNext ∧ ∃ w kl i, s.phase = .exec w kl ∧ decode w = some i ∧ s.readsUnwritten i))))
end

