-- ==== Sys2Proof/Laws/Memory.lean ====
section
/-! SUPPORT. The laws of the operand store: read after write, the canonical form, and bytes against values. -/

namespace Sys2Proof.Machine

theorem Memory.readByte_nil (x : Nat) : Memory.readByte [] x = none := rfl

theorem Memory.readByte_cons (c : Host.Cell) (m : Memory) (x : Nat) :
    Memory.readByte (c :: m) x = if c.1 = x then some c.2 else Memory.readByte m x := rfl

theorem Memory.readByte_append (m₁ m₂ : Memory) (x : Nat) :
    Memory.readByte (m₁ ++ m₂) x = (Memory.readByte m₁ x).or (Memory.readByte m₂ x) := by
  induction m₁ with
  | nil => rfl
  | cons c m ih =>
    simp only [List.cons_append, Memory.readByte_cons]
    split
    · rfl
    · exact ih

theorem Memory.readByte_filter (m : Memory) (p : Nat → Bool) (x : Nat) :
    Memory.readByte (m.filter fun c => p c.1) x = if p x then Memory.readByte m x else none := by
  induction m with
  | nil => simp [Memory.readByte_nil]
  | cons c m ih =>
    by_cases hc : p c.1
    · simp only [List.filter_cons, hc, if_true, Memory.readByte_cons, ih]
      split
      · next h => subst h; simp [hc]
      · rfl
    · rw [List.filter_cons, if_neg hc, ih, Memory.readByte_cons]
      by_cases h : c.1 = x
      · subst h; simp [hc]
      · simp [h]

theorem Memory.readByte_isSome_iff (m : Memory) (x : Nat) :
    (Memory.readByte m x).isSome = true ↔ ∃ c ∈ m, c.1 = x := by
  induction m with
  | nil => simp [Memory.readByte_nil]
  | cons c m ih =>
    rw [Memory.readByte_cons]
    by_cases h : c.1 = x
    · simp [h]
    · simp [h, ih]

theorem readByte_cellsAt (a : Nat) (bs : List Byte) (x : Nat) :
    Memory.readByte (cellsAt a bs) x = if a ≤ x then bs[x - a]? else none := by
  induction bs generalizing a with
  | nil => simp [cellsAt, Memory.readByte_nil]
  | cons b bs ih =>
    rw [cellsAt, Memory.readByte_cons, ih]
    by_cases h : a = x
    · subst h; simp
    · by_cases h' : a ≤ x
      · have : x - a = x - (a + 1) + 1 := by omega
        simp [h, h', this, (by omega : a + 1 ≤ x)]
      · rw [if_neg h, if_neg (by omega), if_neg h']

/-- Read after write, at the written bytes and everywhere else. -/
theorem Memory.readByte_writeBytes (m : Memory) (a : Nat) (bs : List Byte) (x : Nat) :
    (m.writeBytes a bs).readByte x =
      if a ≤ x ∧ x < a + bs.length then bs[x - a]? else m.readByte x := by
  unfold Memory.writeBytes
  rw [Memory.readByte_append, Memory.readByte_append, readByte_cellsAt,
    Memory.readByte_filter m (fun y => decide (y < a)),
    Memory.readByte_filter m (fun y => decide (a + bs.length ≤ y))]
  by_cases h1 : x < a
  · have h2 : ¬ a ≤ x := by omega
    have h3 : ¬ a + bs.length ≤ x := by omega
    simp only [h1, h2, h3, false_and, decide_true, decide_false, if_true, if_false, Option.or_none, Bool.false_eq_true]
  · by_cases h2 : x < a + bs.length
    · have : x - a < bs.length := by omega
      simp [h1, (by omega : a ≤ x), h2, this]
    · have : bs.length ≤ x - a := by omega
      simp [h1, (by omega : a ≤ x), h2, (by omega : a + bs.length ≤ x), this]

theorem Memory.readByte_writeBytes_outside {m : Memory} {a : Nat} {bs : List Byte} {x : Nat}
    (h : ¬ (a ≤ x ∧ x < a + bs.length)) : (m.writeBytes a bs).readByte x = m.readByte x := by
  rw [Memory.readByte_writeBytes, if_neg h]

theorem cellsAt_fst (a : Nat) (bs : List Byte) : (cellsAt a bs).map (·.1) = List.range' a bs.length := by
  induction bs generalizing a with
  | nil => rfl
  | cons b bs ih => simp [cellsAt, ih, List.range'_succ]

theorem mem_cellsAt {a : Nat} {bs : List Byte} {c : Host.Cell} (h : c ∈ cellsAt a bs) :
    a ≤ c.1 ∧ c.1 < a + bs.length := by
  have : c.1 ∈ (cellsAt a bs).map (·.1) := List.mem_map_of_mem h
  rw [cellsAt_fst, List.mem_range'_1] at this
  exact this

theorem Memory.mem_writeBytes {m : Memory} {a : Nat} {bs : List Byte} {c : Host.Cell}
    (h : c ∈ m.writeBytes a bs) : c ∈ m ∨ (a ≤ c.1 ∧ c.1 < a + bs.length) := by
  unfold Memory.writeBytes at h
  rw [List.mem_append, List.mem_append, List.mem_filter, List.mem_filter] at h
  rcases h with (h | h) | h
  · exact .inl h.1
  · exact .inr (mem_cellsAt h)
  · exact .inl h.1

/-- A write keeps the canonical form. -/
theorem Memory.wf_writeBytes {m : Memory} (h : m.wf) (a : Nat) (bs : List Byte) : (m.writeBytes a bs).wf := by
  unfold Memory.wf Memory.writeBytes at *
  rw [List.map_append, List.map_append, cellsAt_fst]
  have hf : ∀ p : Host.Cell → Bool, ((m.filter p).map (·.1)).Pairwise (· < ·) := fun p =>
    h.sublist (List.filter_sublist.map _)
  rw [List.pairwise_append, List.pairwise_append]
  refine ⟨⟨hf _, List.pairwise_lt_range', ?_⟩, hf _, ?_⟩
  · intro x hx y hy
    simp only [List.mem_map, List.mem_filter, decide_eq_true_eq] at hx
    obtain ⟨c, ⟨-, hc⟩, rfl⟩ := hx
    rw [List.mem_range'_1] at hy
    omega
  · intro x hx y hy
    simp only [List.mem_map, List.mem_filter, decide_eq_true_eq] at hy
    obtain ⟨d, ⟨-, hd⟩, rfl⟩ := hy
    rw [List.mem_append, List.mem_range'_1] at hx
    simp only [List.mem_map, List.mem_filter, decide_eq_true_eq] at hx
    rcases hx with ⟨c, ⟨-, hc⟩, rfl⟩ | hx <;> omega

theorem Memory.wf_nil : Memory.wf [] := List.Pairwise.nil

/-- Reading several bytes is reading each of them. -/
theorem Memory.readBytes_eq_some_iff (m : Memory) (a n : Nat) (bs : List Byte) :
    m.readBytes a n = some bs ↔ bs.length = n ∧ ∀ i < n, m.readByte (a + i) = bs[i]? := by
  induction n generalizing a bs with
  | zero =>
    simp only [Memory.readBytes, Option.some.injEq]
    constructor
    · rintro rfl; simp
    · rintro ⟨h, -⟩; exact (List.length_eq_zero_iff.1 h).symm
  | succ n ih =>
    simp only [Memory.readBytes]
    constructor
    · intro h
      split at h
      · next b bs' hb hbs =>
        cases h
        obtain ⟨hl, hr⟩ := (ih (a + 1) bs').1 hbs
        refine ⟨by simp [hl], fun i hi => ?_⟩
        cases i with
        | zero => simpa using hb
        | succ i =>
          have := hr i (by omega)
          rw [(by omega : a + (i + 1) = a + 1 + i)]
          simpa using this
      · cases h
    · rintro ⟨hl, hr⟩
      cases bs with
      | nil => simp at hl
      | cons b bs' =>
        have h0 : m.readByte a = some b := by simpa using hr 0 (by omega)
        have h1 : m.readBytes (a + 1) n = some bs' := by
          refine (ih (a + 1) bs').2 ⟨by simpa using hl, fun i hi => ?_⟩
          have := hr (i + 1) (by omega)
          rw [(by omega : a + 1 + i = a + (i + 1))]
          simpa using this
        rw [h0, h1]

theorem Memory.readBytes_congr {m₁ m₂ : Memory} {a n : Nat}
    (h : ∀ i < n, m₁.readByte (a + i) = m₂.readByte (a + i)) : m₁.readBytes a n = m₂.readBytes a n := by
  induction n generalizing a with
  | zero => rfl
  | succ n ih =>
    have h0 : m₁.readByte a = m₂.readByte a := by simpa using h 0 (by omega)
    have h1 : m₁.readBytes (a + 1) n = m₂.readBytes (a + 1) n :=
      ih fun i hi => by
        have := h (i + 1) (by omega)
        rwa [(by omega : a + (i + 1) = a + 1 + i)] at this
    simp only [Memory.readBytes, h0, h1]

theorem Memory.readBytes_isSome_iff (m : Memory) (a n : Nat) :
    (m.readBytes a n).isSome = true ↔ ∀ i < n, (m.readByte (a + i)).isSome = true := by
  induction n generalizing a with
  | zero => simp [Memory.readBytes]
  | succ n ih =>
    simp only [Memory.readBytes]
    have ih' := ih (a + 1)
    constructor
    · intro h
      split at h
      · next b bs hb hbs =>
        intro i hi
        cases i with
        | zero => simp [hb]
        | succ i =>
          rw [(by omega : a + (i + 1) = a + 1 + i)]
          exact ih'.1 (by simp [hbs]) i (by omega)
      · cases h
    · intro h
      have h0 := h 0 (by omega)
      have h1 : (m.readBytes (a + 1) n).isSome = true :=
        ih'.2 fun i hi => by
          have := h (i + 1) (by omega)
          rwa [(by omega : a + (i + 1) = a + 1 + i)] at this
      obtain ⟨b, hb⟩ := Option.isSome_iff_exists.1 h0
      obtain ⟨bs, hbs⟩ := Option.isSome_iff_exists.1 h1
      simp only [Nat.add_zero] at hb
      simp [hb, hbs]

/-- What was written is read back, in whole or in part. -/
theorem Memory.readBytes_writeBytes_part (m : Memory) (a : Nat) (bs : List Byte) (i n : Nat) (h : i + n ≤ bs.length) :
    (m.writeBytes a bs).readBytes (a + i) n = some ((bs.drop i).take n) := by
  rw [Memory.readBytes_eq_some_iff]
  refine ⟨by simp; omega, fun j hj => ?_⟩
  rw [Memory.readByte_writeBytes, if_pos (by omega), List.getElem?_take_of_lt hj, List.getElem?_drop]
  congr 1; omega

theorem Memory.readBytes_writeBytes_self (m : Memory) (a : Nat) (bs : List Byte) :
    (m.writeBytes a bs).readBytes a bs.length = some bs := by
  have := Memory.readBytes_writeBytes_part m a bs 0 bs.length (by omega)
  simpa using this

theorem Memory.readBytes_writeBytes_outside {m : Memory} {a : Nat} {bs : List Byte} {x n : Nat}
    (h : x + n ≤ a ∨ a + bs.length ≤ x) : (m.writeBytes a bs).readBytes x n = m.readBytes x n :=
  Memory.readBytes_congr fun i hi => Memory.readByte_writeBytes_outside (by omega)

theorem Memory.readBytes_add (m : Memory) (a n k : Nat) :
    m.readBytes a (n + k) =
      (m.readBytes a n).bind fun bs => (m.readBytes (a + n) k).map fun cs => bs ++ cs := by
  induction n generalizing a with
  | zero => simp [Memory.readBytes]
  | succ n ih =>
    rw [(by omega : n + 1 + k = n + k + 1)]
    simp only [Memory.readBytes, ih (a + 1), (by omega : a + 1 + n = a + (n + 1))]
    cases m.readByte a <;> cases m.readBytes (a + 1) n <;> cases m.readBytes (a + (n + 1)) k <;> simp

@[simp] theorem valueBytes_length (n v : Nat) : (valueBytes n v).length = n := by
  induction n generalizing v with
  | zero => rfl
  | succ n ih => simp [valueBytes, ih]

theorem bytesValue_lt (bs : List Byte) : bytesValue bs < 2 ^ (8 * bs.length) := by
  induction bs with
  | nil => simp [bytesValue]
  | cons b bs ih =>
    have := b.isLt
    rw [bytesValue, List.length_cons, Nat.mul_add, Nat.pow_add]
    omega

theorem bytesValue_append (bs cs : List Byte) :
    bytesValue (bs ++ cs) = bytesValue bs + 2 ^ (8 * bs.length) * bytesValue cs := by
  induction bs with
  | nil => simp [bytesValue]
  | cons b bs ih =>
    rw [List.cons_append, bytesValue, ih, bytesValue, List.length_cons]
    ring

theorem bytesValue_replicate_zero (n : Nat) : bytesValue (List.replicate n (0 : Byte)) = 0 := by
  induction n with
  | zero => rfl
  | succ n ih => rw [List.replicate_succ, bytesValue, ih]; rfl

/-- Bytes of a value give the value back, reduced to their width. -/
theorem bytesValue_valueBytes (n v : Nat) : bytesValue (valueBytes n v) = v % 2 ^ (8 * n) := by
  induction n generalizing v with
  | zero => simp [valueBytes, bytesValue, Nat.mod_one]
  | succ n ih =>
    have h : (BitVec.ofNat 8 (v % 256)).toNat = v % 256 := by simp
    rw [valueBytes, bytesValue, ih, h, Nat.mul_add, Nat.pow_add, Nat.mul_comm (2 ^ (8 * n)) (2 ^ (8 * 1)),
      Nat.mod_mul]

theorem valueBytes_add (n k v : Nat) : valueBytes (n + k) v = valueBytes n v ++ valueBytes k (v / 2 ^ (8 * n)) := by
  induction n generalizing v with
  | zero => simp [valueBytes]
  | succ n ih =>
    rw [(by omega : n + 1 + k = n + k + 1), valueBytes, ih, valueBytes, List.cons_append, Nat.div_div_eq_div_mul,
      (by ring : 2 ^ (8 * (n + 1)) = 256 * 2 ^ (8 * n))]

/-- Values of one width with one value are the same bytes. -/
theorem valueBytes_mod (n v : Nat) : valueBytes n (v % 2 ^ (8 * n)) = valueBytes n v := by
  induction n generalizing v with
  | zero => rfl
  | succ n ih =>
    have e : (2 : Nat) ^ (8 * (n + 1)) = 256 * 2 ^ (8 * n) := by ring
    rw [valueBytes, valueBytes, e, Nat.mod_mul_right_mod, Nat.mod_mul_right_div_self, ih]

end Sys2Proof.Machine
end

