-- ==== Sys2Proof/Laws/State.lean ====
section
/-! SUPPORT. One lemma per field per update of State, so that no later proof unfolds a record update. -/

namespace Sys2Proof.Machine

@[simp] theorem State.setLimb_cfg (s : State) (r : Reg) (j : Nat) (v : Word) : (s.setLimb r j v).cfg = s.cfg := rfl
@[simp] theorem State.setLimb_store (s : State) (r : Reg) (j : Nat) (v : Word) : (s.setLimb r j v).store = s.store.writeBytes (limbOffset r j) (valueBytes 8 v.toNat) := rfl
@[simp] theorem State.setLimb_ie (s : State) (r : Reg) (j : Nat) (v : Word) : (s.setLimb r j v).ie = s.ie := rfl
@[simp] theorem State.setLimb_done (s : State) (r : Reg) (j : Nat) (v : Word) : (s.setLimb r j v).done = s.done := rfl
@[simp] theorem State.setLimb_err (s : State) (r : Reg) (j : Nat) (v : Word) : (s.setLimb r j v).err = s.err := rfl
@[simp] theorem State.setLimb_ovr (s : State) (r : Reg) (j : Nat) (v : Word) : (s.setLimb r j v).ovr = s.ovr := rfl
@[simp] theorem State.setLimb_width (s : State) (r : Reg) (j : Nat) (v : Word) : (s.setLimb r j v).width = s.width := rfl
@[simp] theorem State.setLimb_lastcmd (s : State) (r : Reg) (j : Nat) (v : Word) : (s.setLimb r j v).lastcmd = s.lastcmd := rfl
@[simp] theorem State.setLimb_phase (s : State) (r : Reg) (j : Nat) (v : Word) : (s.setLimb r j v).phase = s.phase := rfl
@[simp] theorem State.setLimb_inputs (s : State) (r : Reg) (j : Nat) (v : Word) : (s.setLimb r j v).inputs = s.inputs := rfl
@[simp] theorem State.setLimb_resp (s : State) (r : Reg) (j : Nat) (v : Word) : (s.setLimb r j v).resp = s.resp := rfl
@[simp] theorem State.setLimb_free (s : State) (r : Reg) (j : Nat) (v : Word) : (s.setLimb r j v).free = s.free := rfl

@[simp] theorem State.writeback_cfg (s : State) (rd : Reg) (k v : Nat) : (s.writeback rd k v).cfg = s.cfg := rfl
@[simp] theorem State.writeback_store (s : State) (rd : Reg) (k v : Nat) : (s.writeback rd k v).store = s.store.writeBytes (limbOffset rd 0) (valueBytes (8 * k) v ++ List.replicate (8 * (s.cfg.kmax - k)) 0) := rfl
@[simp] theorem State.writeback_ie (s : State) (rd : Reg) (k v : Nat) : (s.writeback rd k v).ie = s.ie := rfl
@[simp] theorem State.writeback_done (s : State) (rd : Reg) (k v : Nat) : (s.writeback rd k v).done = s.done := rfl
@[simp] theorem State.writeback_err (s : State) (rd : Reg) (k v : Nat) : (s.writeback rd k v).err = s.err := rfl
@[simp] theorem State.writeback_ovr (s : State) (rd : Reg) (k v : Nat) : (s.writeback rd k v).ovr = s.ovr := rfl
@[simp] theorem State.writeback_width (s : State) (rd : Reg) (k v : Nat) : (s.writeback rd k v).width = s.width := rfl
@[simp] theorem State.writeback_lastcmd (s : State) (rd : Reg) (k v : Nat) : (s.writeback rd k v).lastcmd = s.lastcmd := rfl
@[simp] theorem State.writeback_phase (s : State) (rd : Reg) (k v : Nat) : (s.writeback rd k v).phase = s.phase := rfl
@[simp] theorem State.writeback_inputs (s : State) (rd : Reg) (k v : Nat) : (s.writeback rd k v).inputs = s.inputs := rfl
@[simp] theorem State.writeback_resp (s : State) (rd : Reg) (k v : Nat) : (s.writeback rd k v).resp = s.resp := rfl
@[simp] theorem State.writeback_free (s : State) (rd : Reg) (k v : Nat) : (s.writeback rd k v).free = s.free := rfl

@[simp] theorem State.accept_cfg (s : State) (v : Word) : (s.accept v).cfg = s.cfg := rfl
@[simp] theorem State.accept_store (s : State) (v : Word) : (s.accept v).store = s.store := rfl
@[simp] theorem State.accept_ie (s : State) (v : Word) : (s.accept v).ie = s.ie := rfl
@[simp] theorem State.accept_done (s : State) (v : Word) : (s.accept v).done = false := rfl
@[simp] theorem State.accept_err (s : State) (v : Word) : (s.accept v).err = .ok := rfl
@[simp] theorem State.accept_ovr (s : State) (v : Word) : (s.accept v).ovr = s.ovr := rfl
@[simp] theorem State.accept_width (s : State) (v : Word) : (s.accept v).width = s.width := rfl
@[simp] theorem State.accept_lastcmd (s : State) (v : Word) : (s.accept v).lastcmd = v := rfl
@[simp] theorem State.accept_phase (s : State) (v : Word) : (s.accept v).phase = .exec v s.width := rfl
@[simp] theorem State.accept_inputs (s : State) (v : Word) : (s.accept v).inputs = s.inputs := rfl
@[simp] theorem State.accept_resp (s : State) (v : Word) : (s.accept v).resp = s.resp := rfl
@[simp] theorem State.accept_free (s : State) (v : Word) : (s.accept v).free = s.free := rfl

@[simp] theorem State.complete_cfg (s : State) (e : ErrCode) (res : Option Result) : (s.complete e res).cfg = s.cfg := rfl
@[simp] theorem State.complete_ie (s : State) (e : ErrCode) (res : Option Result) : (s.complete e res).ie = s.ie := rfl
@[simp] theorem State.complete_done (s : State) (e : ErrCode) (res : Option Result) : (s.complete e res).done = true := rfl
@[simp] theorem State.complete_err (s : State) (e : ErrCode) (res : Option Result) : (s.complete e res).err = e := rfl
@[simp] theorem State.complete_ovr (s : State) (e : ErrCode) (res : Option Result) : (s.complete e res).ovr = s.ovr := rfl
@[simp] theorem State.complete_width (s : State) (e : ErrCode) (res : Option Result) : (s.complete e res).width = s.width := rfl
@[simp] theorem State.complete_lastcmd (s : State) (e : ErrCode) (res : Option Result) : (s.complete e res).lastcmd = s.lastcmd := rfl
@[simp] theorem State.complete_phase (s : State) (e : ErrCode) (res : Option Result) : (s.complete e res).phase = .idle := rfl
@[simp] theorem State.complete_inputs (s : State) (e : ErrCode) (res : Option Result) : (s.complete e res).inputs = s.inputs := rfl
@[simp] theorem State.complete_resp (s : State) (e : ErrCode) (res : Option Result) : (s.complete e res).resp = s.resp := rfl
@[simp] theorem State.complete_free (s : State) (e : ErrCode) (res : Option Result) : (s.complete e res).free = s.free := rfl

@[simp] theorem State.softReset_cfg (s : State) : s.softReset.cfg = s.cfg := rfl
@[simp] theorem State.softReset_store (s : State) : s.softReset.store = s.store := rfl
@[simp] theorem State.softReset_ie (s : State) : s.softReset.ie = false := rfl
@[simp] theorem State.softReset_done (s : State) : s.softReset.done = false := rfl
@[simp] theorem State.softReset_err (s : State) : s.softReset.err = .ok := rfl
@[simp] theorem State.softReset_ovr (s : State) : s.softReset.ovr = false := rfl
@[simp] theorem State.softReset_width (s : State) : s.softReset.width = 0 := rfl
@[simp] theorem State.softReset_lastcmd (s : State) : s.softReset.lastcmd = 0 := rfl
@[simp] theorem State.softReset_phase (s : State) : s.softReset.phase = .idle := rfl
@[simp] theorem State.softReset_inputs (s : State) : s.softReset.inputs = s.inputs := rfl
@[simp] theorem State.softReset_resp (s : State) : s.softReset.resp = s.resp := rfl
@[simp] theorem State.softReset_free (s : State) : s.softReset.free = s.free := rfl

@[simp] theorem State.hardReset_cfg (s : State) : s.hardReset.cfg = s.cfg := rfl
@[simp] theorem State.hardReset_store (s : State) : s.hardReset.store = [] := rfl
@[simp] theorem State.hardReset_ie (s : State) : s.hardReset.ie = false := rfl
@[simp] theorem State.hardReset_done (s : State) : s.hardReset.done = false := rfl
@[simp] theorem State.hardReset_err (s : State) : s.hardReset.err = .ok := rfl
@[simp] theorem State.hardReset_ovr (s : State) : s.hardReset.ovr = false := rfl
@[simp] theorem State.hardReset_width (s : State) : s.hardReset.width = 0 := rfl
@[simp] theorem State.hardReset_lastcmd (s : State) : s.hardReset.lastcmd = 0 := rfl
@[simp] theorem State.hardReset_phase (s : State) : s.hardReset.phase = .idle := rfl
@[simp] theorem State.hardReset_inputs (s : State) : s.hardReset.inputs = s.inputs := rfl
@[simp] theorem State.hardReset_resp (s : State) : s.hardReset.resp = none := rfl
@[simp] theorem State.hardReset_free (s : State) : s.hardReset.free = s.free + 1 := rfl

@[simp] theorem State.overrun_cfg (s : State) : s.overrun.cfg = s.cfg := rfl
@[simp] theorem State.overrun_store (s : State) : s.overrun.store = s.store := rfl
@[simp] theorem State.overrun_ie (s : State) : s.overrun.ie = s.ie := rfl
@[simp] theorem State.overrun_done (s : State) : s.overrun.done = s.done := rfl
@[simp] theorem State.overrun_err (s : State) : s.overrun.err = s.err := rfl
@[simp] theorem State.overrun_ovr (s : State) : s.overrun.ovr = true := rfl
@[simp] theorem State.overrun_width (s : State) : s.overrun.width = s.width := rfl
@[simp] theorem State.overrun_lastcmd (s : State) : s.overrun.lastcmd = s.lastcmd := rfl
@[simp] theorem State.overrun_phase (s : State) : s.overrun.phase = s.phase := rfl
@[simp] theorem State.overrun_inputs (s : State) : s.overrun.inputs = s.inputs := rfl
@[simp] theorem State.overrun_resp (s : State) : s.overrun.resp = s.resp := rfl
@[simp] theorem State.overrun_free (s : State) : s.overrun.free = s.free := rfl

@[simp] theorem State.writeStatus_cfg (s : State) (v : Word) : (s.writeStatus v).cfg = s.cfg := rfl
@[simp] theorem State.writeStatus_store (s : State) (v : Word) : (s.writeStatus v).store = s.store := rfl
@[simp] theorem State.writeStatus_ie (s : State) (v : Word) : (s.writeStatus v).ie = s.ie := rfl
@[simp] theorem State.writeStatus_done (s : State) (v : Word) : (s.writeStatus v).done = (s.done && !v.getLsbD 1) := rfl
@[simp] theorem State.writeStatus_err (s : State) (v : Word) : (s.writeStatus v).err = s.err := rfl
@[simp] theorem State.writeStatus_ovr (s : State) (v : Word) : (s.writeStatus v).ovr = (s.ovr && !v.getLsbD 8) := rfl
@[simp] theorem State.writeStatus_width (s : State) (v : Word) : (s.writeStatus v).width = s.width := rfl
@[simp] theorem State.writeStatus_lastcmd (s : State) (v : Word) : (s.writeStatus v).lastcmd = s.lastcmd := rfl
@[simp] theorem State.writeStatus_phase (s : State) (v : Word) : (s.writeStatus v).phase = s.phase := rfl
@[simp] theorem State.writeStatus_inputs (s : State) (v : Word) : (s.writeStatus v).inputs = s.inputs := rfl
@[simp] theorem State.writeStatus_resp (s : State) (v : Word) : (s.writeStatus v).resp = s.resp := rfl
@[simp] theorem State.writeStatus_free (s : State) (v : Word) : (s.writeStatus v).free = s.free := rfl

@[simp] theorem State.writeWidth_cfg (s : State) (v : Word) : (s.writeWidth v).cfg = s.cfg := rfl
@[simp] theorem State.writeWidth_store (s : State) (v : Word) : (s.writeWidth v).store = s.store := rfl
@[simp] theorem State.writeWidth_ie (s : State) (v : Word) : (s.writeWidth v).ie = s.ie := rfl
@[simp] theorem State.writeWidth_done (s : State) (v : Word) : (s.writeWidth v).done = s.done := rfl
@[simp] theorem State.writeWidth_err (s : State) (v : Word) : (s.writeWidth v).err = s.err := rfl
@[simp] theorem State.writeWidth_ovr (s : State) (v : Word) : (s.writeWidth v).ovr = s.ovr := rfl
@[simp] theorem State.writeWidth_width (s : State) (v : Word) : (s.writeWidth v).width = v.setWidth 16 := rfl
@[simp] theorem State.writeWidth_lastcmd (s : State) (v : Word) : (s.writeWidth v).lastcmd = s.lastcmd := rfl
@[simp] theorem State.writeWidth_phase (s : State) (v : Word) : (s.writeWidth v).phase = s.phase := rfl
@[simp] theorem State.writeWidth_inputs (s : State) (v : Word) : (s.writeWidth v).inputs = s.inputs := rfl
@[simp] theorem State.writeWidth_resp (s : State) (v : Word) : (s.writeWidth v).resp = s.resp := rfl
@[simp] theorem State.writeWidth_free (s : State) (v : Word) : (s.writeWidth v).free = s.free := rfl

@[simp] theorem State.readyToComplete_cfg (s : State) (w : Word) : (s.readyToComplete w).cfg = s.cfg := rfl
@[simp] theorem State.readyToComplete_store (s : State) (w : Word) : (s.readyToComplete w).store = s.store := rfl
@[simp] theorem State.readyToComplete_ie (s : State) (w : Word) : (s.readyToComplete w).ie = s.ie := rfl
@[simp] theorem State.readyToComplete_done (s : State) (w : Word) : (s.readyToComplete w).done = false := rfl
@[simp] theorem State.readyToComplete_err (s : State) (w : Word) : (s.readyToComplete w).err = .ok := rfl
@[simp] theorem State.readyToComplete_ovr (s : State) (w : Word) : (s.readyToComplete w).ovr = s.ovr := rfl
@[simp] theorem State.readyToComplete_width (s : State) (w : Word) : (s.readyToComplete w).width = s.width := rfl
@[simp] theorem State.readyToComplete_lastcmd (s : State) (w : Word) : (s.readyToComplete w).lastcmd = w := rfl
@[simp] theorem State.readyToComplete_phase (s : State) (w : Word) : (s.readyToComplete w).phase = .exec w s.width := rfl
@[simp] theorem State.readyToComplete_inputs (s : State) (w : Word) : (s.readyToComplete w).inputs = .engineTurn :: s.inputs := rfl
@[simp] theorem State.readyToComplete_resp (s : State) (w : Word) : (s.readyToComplete w).resp = s.resp := rfl
@[simp] theorem State.readyToComplete_free (s : State) (w : Word) : (s.readyToComplete w).free = s.free := rfl

@[simp] theorem State.afterRead_true (s : State) : s.afterRead true = s := rfl
@[simp] theorem State.afterRead_false (s : State) : s.afterRead false = { s with free := s.free + 1 } := rfl
@[simp] theorem State.afterRead_cfg (s : State) (b : Bool) : (s.afterRead b).cfg = s.cfg := by cases b <;> rfl
@[simp] theorem State.afterRead_store (s : State) (b : Bool) : (s.afterRead b).store = s.store := by cases b <;> rfl
@[simp] theorem State.afterRead_ie (s : State) (b : Bool) : (s.afterRead b).ie = s.ie := by cases b <;> rfl
@[simp] theorem State.afterRead_done (s : State) (b : Bool) : (s.afterRead b).done = s.done := by cases b <;> rfl
@[simp] theorem State.afterRead_err (s : State) (b : Bool) : (s.afterRead b).err = s.err := by cases b <;> rfl
@[simp] theorem State.afterRead_ovr (s : State) (b : Bool) : (s.afterRead b).ovr = s.ovr := by cases b <;> rfl
@[simp] theorem State.afterRead_width (s : State) (b : Bool) : (s.afterRead b).width = s.width := by cases b <;> rfl
@[simp] theorem State.afterRead_lastcmd (s : State) (b : Bool) : (s.afterRead b).lastcmd = s.lastcmd := by cases b <;> rfl
@[simp] theorem State.afterRead_phase (s : State) (b : Bool) : (s.afterRead b).phase = s.phase := by cases b <;> rfl
@[simp] theorem State.afterRead_inputs (s : State) (b : Bool) : (s.afterRead b).inputs = s.inputs := by cases b <;> rfl
@[simp] theorem State.afterRead_resp (s : State) (b : Bool) : (s.afterRead b).resp = s.resp := by cases b <;> rfl
@[simp] theorem State.afterRead_limb (s : State) (b : Bool) (r : Reg) (j : Nat) : (s.afterRead b).limb r j = s.limb r j := by
  cases b <;> rfl
@[simp] theorem State.afterRead_busy (s : State) (b : Bool) : (s.afterRead b).busy = s.busy := by cases b <;> rfl

/-- The store after a successful completion with a result. -/
@[simp] theorem State.complete_ok_store (s : State) (r : Result) :
    (s.complete .ok (some r)).store = (s.writeback r.rd r.k r.v).store := rfl

/-- A completion without a result leaves the store as it was. -/
@[simp] theorem State.complete_none_store (s : State) (e : ErrCode) : (s.complete e none).store = s.store := by
  cases e <;> rfl

/-- A completion with an error leaves the store as it was (R263). -/
theorem State.complete_error_store (s : State) (e : ErrCode) (res : Option Result) (h : e ≠ .ok) :
    (s.complete e res).store = s.store := by
  cases e <;> cases res <;> first | rfl | exact absurd rfl h

@[simp] theorem State.writeCtrl_reset (s : State) (v : Word) (h : v.getLsbD 0 = true) : s.writeCtrl v = s.softReset := by
  simp only [State.writeCtrl, h, if_true]

@[simp] theorem State.writeCtrl_enable (s : State) (v : Word) (h : v.getLsbD 0 = false) :
    s.writeCtrl v = { s with ie := v.getLsbD 1 } := by
  simp only [State.writeCtrl, h, Bool.false_eq_true, if_false]

@[simp] theorem State.writeCtrl_store (s : State) (v : Word) : (s.writeCtrl v).store = s.store := by
  unfold State.writeCtrl; split <;> rfl

@[simp] theorem State.writeCtrl_cfg (s : State) (v : Word) : (s.writeCtrl v).cfg = s.cfg := by
  unfold State.writeCtrl; split <;> rfl

@[simp] theorem State.writeCtrl_inputs (s : State) (v : Word) : (s.writeCtrl v).inputs = s.inputs := by
  unfold State.writeCtrl; split <;> rfl

theorem State.busy_eq_true_iff (s : State) : s.busy = true ↔ ∃ w k, s.phase = .exec w k := by
  unfold State.busy; cases s.phase <;> simp

theorem State.busy_eq_false_iff (s : State) : s.busy = false ↔ s.phase = .idle := by
  unfold State.busy; cases s.phase <;> simp

end Sys2Proof.Machine
end

