-- ==== Sys2Proof/Laws/Operands.lean ====
section
/-! SUPPORT. Limbs and big registers: what a write leaves in them, and how a register's value is made of its limbs. -/

namespace Sys2Proof.Machine

theorem limbOffset_add (r : Reg) (j : Nat) : limbOffset r j = limbOffset r 0 + 8 * j := by
  unfold limbOffset; omega

/-- The slots of two different registers do not overlap (R86). -/
theorem limbOffset_disjoint {r r' : Reg} (h : r ≠ r') :
    limbOffset r 0 + 0x1000 ≤ limbOffset r' 0 ∨ limbOffset r' 0 + 0x1000 ≤ limbOffset r 0 := by
  have : r.val ≠ r'.val := fun e => h (Fin.ext e)
  unfold limbOffset; omega

/-- A limb depends on the bytes of its slot only. -/
theorem State.limb_congr {s t : State} {r : Reg} {j : Nat}
    (h : ∀ i < 8, s.store.readByte (limbOffset r j + i) = t.store.readByte (limbOffset r j + i)) :
    s.limb r j = t.limb r j := by
  unfold State.limb; rw [Memory.readBytes_congr h]

theorem State.big_congr {s t : State} {r : Reg} {k : Nat}
    (h : ∀ i < 8 * k, s.store.readByte (limbOffset r 0 + i) = t.store.readByte (limbOffset r 0 + i)) :
    s.big r k = t.big r k := by
  unfold State.big; rw [Memory.readBytes_congr h]

theorem State.big_lt {s : State} {r : Reg} {k v : Nat} (h : s.big r k = some v) : v < 2 ^ (64 * k) := by
  unfold State.big at h
  rw [Option.map_eq_some_iff] at h
  obtain ⟨bs, hbs, rfl⟩ := h
  have hl := ((Memory.readBytes_eq_some_iff _ _ _ _).1 hbs).1
  have := bytesValue_lt bs
  rwa [hl, ← Nat.mul_assoc] at this

/-- One more limb of a register's value (R11). -/
theorem State.big_succ (s : State) (r : Reg) (k : Nat) :
    s.big r (k + 1) = (s.big r k).bind fun v => (s.limb r k).map fun l => v + 2 ^ (64 * k) * l.toNat := by
  unfold State.big State.limb
  rw [(by ring : 8 * (k + 1) = 8 * k + 8), Memory.readBytes_add, ← limbOffset_add]
  cases h1 : s.store.readBytes (limbOffset r 0) (8 * k) with
  | none => simp
  | some bs =>
    cases h2 : s.store.readBytes (limbOffset r k) 8 with
    | none => simp
    | some cs =>
      have hb := ((Memory.readBytes_eq_some_iff _ _ _ _).1 h1).1
      have hc := ((Memory.readBytes_eq_some_iff _ _ _ _).1 h2).1
      have hlt := bytesValue_lt cs
      rw [hc] at hlt
      have e : (2 : Nat) ^ (8 * (8 * k)) = 2 ^ (64 * k) := by ring_nf
      simp only [Option.map_some, Option.bind_some, bytesValue_append, hb, e, BitVec.toNat_ofNat,
        Nat.mod_eq_of_lt hlt]

theorem State.big_zero (s : State) (r : Reg) : s.big r 0 = some 0 := rfl

/-- A register's value exists exactly when its limbs have been written (R34). -/
theorem State.big_isSome_iff (s : State) (r : Reg) (k : Nat) :
    (s.big r k).isSome = true ↔ ∀ j < k, (s.limb r j).isSome = true := by
  induction k with
  | zero => simp [State.big_zero]
  | succ k ih =>
    rw [State.big_succ]
    constructor
    · intro h j hj
      cases hb : s.big r k with
      | none => simp [hb] at h
      | some v =>
        cases hl : s.limb r k with
        | none => simp [hb, hl] at h
        | some l =>
          rcases Nat.lt_succ_iff_lt_or_eq.1 hj with h' | rfl
          · exact ih.1 (by simp [hb]) j h'
          · simp [hl]
    · intro h
      have hb := ih.2 fun j hj => h j (by omega)
      have hl := h k (by omega)
      obtain ⟨v, hv⟩ := Option.isSome_iff_exists.1 hb
      obtain ⟨l, hl⟩ := Option.isSome_iff_exists.1 hl
      simp [hv, hl]

/-- A written limb is read as it is (R86). -/
theorem State.readLimb_some {s : State} {r : Reg} {j : Nat} {v : Word} (h : s.limb r j = some v) : s.readLimb r j = v := by
  unfold State.readLimb; rw [h]; rfl

/-- An unwritten limb is read as a free value (log entry 1). -/
theorem State.readLimb_none {s : State} {r : Reg} {j : Nat} (h : s.limb r j = none) :
    s.readLimb r j = Config.freeLimb s.free (limbOffset r j) := by
  unfold State.readLimb; rw [h]; rfl

theorem State.source_lt (s : State) (r : Reg) (k : Nat) : s.source r k < 2 ^ (64 * k) := by
  induction k with
  | zero => simp [State.source]
  | succ k ih =>
    have hl := (s.readLimb r k).isLt
    have e : (2 : Nat) ^ (64 * (k + 1)) = 2 ^ (64 * k) * 2 ^ 64 := by rw [← pow_add]; ring_nf
    rw [State.source, e]
    nlinarith [Nat.mul_le_mul_left (2 ^ (64 * k)) (Nat.succ_le_of_lt hl)]

/-- A source whose limbs have all been written is read as its value (R11). -/
theorem State.source_eq {s : State} {r : Reg} {k v : Nat} (h : s.big r k = some v) : s.source r k = v := by
  induction k generalizing v with
  | zero => rw [State.big_zero] at h; cases h; rfl
  | succ k ih =>
    rw [State.big_succ] at h
    cases hb : s.big r k with
    | none => simp [hb] at h
    | some a =>
      cases hl : s.limb r k with
      | none => simp [hb, hl] at h
      | some l =>
        rw [State.source, ih hb, State.readLimb_some hl]
        simpa [hb, hl] using h

/-- A source depends on how its limbs are read only (R33). -/
theorem State.source_congr {s t : State} {r : Reg} {k : Nat} (h : ∀ j < k, s.readLimb r j = t.readLimb r j) :
    s.source r k = t.source r k := by
  induction k with
  | zero => rfl
  | succ k ih => rw [State.source, State.source, ih fun j hj => h j (by omega), h k (by omega)]

/-- Bit 0 of a source is bit 0 of its limb 0 (R231). -/
theorem State.source_mod_two (s : State) (r : Reg) {k : Nat} (hk : 1 ≤ k) :
    s.source r k % 2 = (s.readLimb r 0).toNat % 2 := by
  induction k with
  | zero => omega
  | succ k ih =>
    rcases Nat.eq_zero_or_pos k with rfl | hk'
    · simp [State.source]
    · have he : 2 ^ (64 * k) % 2 = 0 := by
        rw [(by omega : 64 * k = 64 * k - 1 + 1), pow_succ]
        omega
      rw [State.source, Nat.add_mod, ih hk', Nat.mul_mod, he]
      simp

/-- Whether reading sources renews the free values (R34, log entry 1). -/
theorem State.afterSources_written {s : State} {rs : List Reg} {n : Nat}
    (h : ∀ r ∈ rs, ∀ j < n, (s.limb r j).isSome = true) : s.afterSources rs n = s := by
  have : (rs.all fun r => (s.big r n).isSome) = true := by
    rw [List.all_eq_true]
    exact fun r hr => (s.big_isSome_iff r n).2 (h r hr)
  rw [State.afterSources, this, State.afterRead_true]

theorem State.afterSources_unwritten {s : State} {rs : List Reg} {r : Reg} {n j : Nat} (hr : r ∈ rs) (hj : j < n)
    (h : s.limb r j = none) : s.afterSources rs n = { s with free := s.free + 1 } := by
  have : (rs.all fun r => (s.big r n).isSome) = false := by
    rw [List.all_eq_false]
    refine ⟨r, hr, fun hb => ?_⟩
    have := (s.big_isSome_iff r n).1 hb j hj
    simp [h] at this
  rw [State.afterSources, this, State.afterRead_false]

/-- A host write of a limb is read back (R86). -/
theorem State.limb_setLimb_self (s : State) (r : Reg) (j : Nat) (v : Word) : (s.setLimb r j v).limb r j = some v := by
  have h := Memory.readBytes_writeBytes_self s.store (limbOffset r j) (valueBytes 8 v.toNat)
  rw [valueBytes_length] at h
  unfold State.limb
  rw [State.setLimb_store, h, Option.map_some, bytesValue_valueBytes, Nat.mod_eq_of_lt v.isLt, BitVec.ofNat_toNat,
    BitVec.setWidth_eq]

/-- A host write of a limb leaves every other limb alone (R86). -/
theorem State.limb_setLimb_other (s : State) {r r' : Reg} {j j' : Nat} (v : Word) (hj : j < 512) (hj' : j' < 512)
    (h : r ≠ r' ∨ j ≠ j') : (s.setLimb r j v).limb r' j' = s.limb r' j' := by
  unfold State.limb
  rw [State.setLimb_store, Memory.readBytes_writeBytes_outside]
  rw [valueBytes_length]
  have : limbOffset r' j' + 8 ≤ limbOffset r j ∨ limbOffset r j + 8 ≤ limbOffset r' j' := by
    by_cases hr : r = r'
    · subst hr
      have : j ≠ j' := h.resolve_left fun f => f rfl
      unfold limbOffset; omega
    · have := limbOffset_disjoint hr
      unfold limbOffset at *; omega
  exact this

/-- The bytes that a writeback writes (R165). -/
theorem writeback_length (s : State) {k : Nat} (v : Nat) (hk : k ≤ s.cfg.kmax) :
    (valueBytes (8 * k) v ++ List.replicate (8 * (s.cfg.kmax - k)) (0 : Byte)).length = 8 * s.cfg.kmax := by
  simp; omega

/-- The whole slot of the destination after a writeback is the value, zero-extended (R165). -/
theorem State.big_writeback (s : State) (rd : Reg) {k v : Nat} (hv : v < 2 ^ (64 * k)) :
    (s.writeback rd k v).big rd k = some v := by
  have h := Memory.readBytes_writeBytes_part s.store (limbOffset rd 0)
    (valueBytes (8 * k) v ++ List.replicate (8 * (s.cfg.kmax - k)) 0) 0 (8 * k) (by simp)
  unfold State.big
  rw [Nat.add_zero] at h
  rw [State.writeback_store, h]
  rw [List.drop_zero, List.take_append_of_le_length (by simp), List.take_of_length_le (by simp), Option.map_some,
    bytesValue_valueBytes, Nat.mod_eq_of_lt]
  rw [← Nat.mul_assoc]; exact hv

/-- Limbs below k after a writeback (R165). -/
theorem State.limb_writeback_low (s : State) (rd : Reg) {k v j : Nat} (hj : j < k) :
    (s.writeback rd k v).limb rd j = some (BitVec.ofNat 64 (v / 2 ^ (64 * j) % 2 ^ 64)) := by
  have h := Memory.readBytes_writeBytes_part s.store (limbOffset rd 0)
    (valueBytes (8 * k) v ++ List.replicate (8 * (s.cfg.kmax - k)) 0) (8 * j) 8 (by simp; omega)
  unfold State.limb
  rw [State.writeback_store, limbOffset_add rd j, h]
  rw [(by omega : 8 * k = 8 * j + (8 + (8 * k - 8 * j - 8))), valueBytes_add, valueBytes_add, List.append_assoc,
    List.drop_left' (by simp), List.append_assoc, List.take_left' (by simp), Option.map_some, bytesValue_valueBytes,
    ← Nat.mul_assoc]

/-- Limbs from k up to KMAX after a writeback (R165). -/
theorem State.limb_writeback_high (s : State) (rd : Reg) {k v j : Nat} (hj : k ≤ j) (hj' : j < s.cfg.kmax) :
    (s.writeback rd k v).limb rd j = some 0 := by
  have h := Memory.readBytes_writeBytes_part s.store (limbOffset rd 0)
    (valueBytes (8 * k) v ++ List.replicate (8 * (s.cfg.kmax - k)) 0) (8 * j) 8 (by simp; omega)
  unfold State.limb
  rw [State.writeback_store, limbOffset_add rd j, h]
  rw [List.drop_append, List.drop_eq_nil_of_le (by simp; omega), List.nil_append, List.drop_replicate,
    List.take_replicate, Option.map_some, bytesValue_replicate_zero]
  rfl

/-- A writeback leaves every byte outside the destination's slot alone (R165). -/
theorem State.readByte_writeback_outside (s : State) (rd : Reg) {k v x : Nat} (hk : k ≤ s.cfg.kmax)
    (h : ¬ (limbOffset rd 0 ≤ x ∧ x < limbOffset rd 0 + 8 * s.cfg.kmax)) :
    (s.writeback rd k v).store.readByte x = s.store.readByte x := by
  rw [State.writeback_store, Memory.readByte_writeBytes_outside]
  rwa [writeback_length s v hk]

end Sys2Proof.Machine
end

