-- ==== Sys2Proof/Laws/Bus.lean ====
section
/-! SUPPORT. The host window, said once: the address map, the two kinds of admitted access, and what a transaction can do. -/

namespace Sys2Proof.Machine

theorem Access.admitted_iff (a : Access) : a.admitted = true ↔ a.size = 8 ∧ a.off % 8 = 0 ∧ a.off < 0x20000 := by
  unfold Access.admitted windowSize; exact decide_eq_true_iff

/-- An admitted read, at any aligned offset of the window (R82, R84). -/
theorem State.respond_read {s : State} {off : Nat} (h1 : off % 8 = 0) (h2 : off < 0x20000) :
    s.respond (.read off 8) = ((s.readTarget (targetOf s.cfg off)).1, .readOkay (s.readTarget (targetOf s.cfg off)).2) := by
  have : (Access.read off 8).admitted = true := (Access.admitted_iff _).2 ⟨rfl, h1, h2⟩
  simp [State.respond, this]

/-- An admitted write, at any aligned offset of the window (R82, R84). -/
theorem State.respond_write {s : State} {off : Nat} {v : Word} (h1 : off % 8 = 0) (h2 : off < 0x20000) :
    s.respond (.write off 8 v) = (s.writeTarget v (targetOf s.cfg off), .writeOkay) := by
  have : (Access.write off 8 v).admitted = true := (Access.admitted_iff _).2 ⟨rfl, h1, h2⟩
  simp [State.respond, this]

/-- The offset of limb j of register r leads to that limb, or is reserved when j ≥ KMAX (R86). -/
theorem targetOf_limbOffset (c : Config) (r : Reg) {j : Nat} (hj : j < 512) :
    targetOf c (limbOffset r j) = if j < c.kmax then .limb r j else .reserved := by
  have hr := r.isLt
  unfold targetOf limbOffset
  rw [if_neg (by omega), if_neg (by omega), if_neg (by omega), if_neg (by omega), if_neg (by omega), if_pos (by omega),
    (by omega : (0x10000 + 0x1000 * r.val + 8 * j) / 8 % 512 = j)]
  have : Fin.ofNat 16 ((0x10000 + 0x1000 * r.val + 8 * j) / 0x1000 % 16) = r := by
    apply Fin.ext; simp; omega
  rw [this]

/-- An aligned window offset that leads to a limb is the offset of that limb (R86). -/
theorem targetOf_eq_limb {c : Config} {off : Nat} {r : Reg} {j : Nat} (h : targetOf c off = .limb r j) :
    0x10000 ≤ off ∧ j < c.kmax ∧ j < 512 ∧ (off % 8 = 0 → off < 0x20000 → off = limbOffset r j) := by
  unfold targetOf at h
  split at h
  · cases h
  split at h
  · cases h
  split at h
  · cases h
  split at h
  · cases h
  split at h
  · cases h
  split at h
  · split at h
    · cases h
      refine ⟨by assumption, by assumption, by omega, fun h1 h2 => ?_⟩
      unfold limbOffset
      simp only [Fin.val_ofNat]
      omega
    · cases h
  · cases h

/-- Reserved offsets, and operand offsets with j ≥ KMAX (R85, R86). -/
theorem targetOf_reserved (c : Config) (off : Nat)
    (h : (0x28 ≤ off ∧ off ≤ 0xFFFF) ∨ (0x10000 ≤ off ∧ c.kmax ≤ off / 8 % 512)) : targetOf c off = .reserved := by
  unfold targetOf
  rw [if_neg (by omega), if_neg (by omega), if_neg (by omega), if_neg (by omega), if_neg (by omega)]
  rcases h with h | h
  · rw [if_neg (by omega)]
  · rw [if_pos (by omega), if_neg (by omega)]

/-- What a read can do to the state (R91): nothing, or, at a limb while BUSY = 1, set OVR. -/
theorem State.readTarget_cases (s : State) (tg : Target) :
    (s.readTarget tg).1 = s ∨ (s.busy = true ∧ (∃ r j, tg = .limb r j) ∧ s.readTarget tg = (s.overrun, 0)) := by
  unfold State.readTarget
  split <;> (try exact .inl rfl)
  next r j =>
    split
    · next hb => exact .inr ⟨hb, ⟨r, j, rfl⟩, rfl⟩
    · exact .inl rfl

/-- A limb read while BUSY = 0, whatever has been written (R86, R91). -/
theorem State.readTarget_limb_idle {s : State} (h : s.busy = false) (r : Reg) (j : Nat) :
    s.readTarget (.limb r j) = (s, s.readLimb r j) := by
  simp [State.readTarget, h]

/-- What a transaction can do (R82, R83): BERR and nothing, a read, or a write. -/
theorem State.respond_cases (s : State) (a : Access) :
    (a.admitted = false ∧ s.respond a = (s, .berr)) ∨
    (a.admitted = true ∧ ∃ off size, a = .read off size ∧
      s.respond a = ((s.readTarget (targetOf s.cfg off)).1, .readOkay (s.readTarget (targetOf s.cfg off)).2)) ∨
    (a.admitted = true ∧ ∃ off size v, a = .write off size v ∧
      s.respond a = (s.writeTarget v (targetOf s.cfg off), .writeOkay)) := by
  cases ha : a.admitted with
  | false => exact .inl ⟨rfl, by simp [State.respond, ha]⟩
  | true =>
    cases a with
    | read off size => exact .inr (.inl ⟨rfl, off, size, rfl, by simp [State.respond, ha]⟩)
    | write off size v => exact .inr (.inr ⟨rfl, off, size, v, rfl, by simp [State.respond, ha]⟩)

/-- A read neither depends on nor changes the moves to come and the last answer. -/
theorem State.readTarget_otherMoves (s : State) (tg : Target) (rest : List Input) (r : Option Response) :
    State.readTarget { s with inputs := rest, resp := r } tg =
      ({ (s.readTarget tg).1 with inputs := rest, resp := r }, (s.readTarget tg).2) := by
  have hb : State.busy { s with inputs := rest, resp := r } = s.busy := rfl
  cases tg with
  | limb b j =>
    have hr : State.readLimb { s with inputs := rest, resp := r } b j = s.readLimb b j := rfl
    simp only [State.readTarget, hb, hr]
    split <;> rfl
  | _ => rfl

/-- A write neither depends on nor changes the moves to come and the last answer. -/
theorem State.writeTarget_otherMoves (s : State) (v : Word) (tg : Target) (rest : List Input) (r : Option Response) :
    State.writeTarget { s with inputs := rest, resp := r } v tg =
      { s.writeTarget v tg with inputs := rest, resp := r } := by
  have hb : State.busy { s with inputs := rest, resp := r } = s.busy := rfl
  cases tg with
  | ctrl => simp only [State.writeTarget, State.writeCtrl]; split <;> rfl
  | width => simp only [State.writeTarget, hb]; split <;> rfl
  | cmd => simp only [State.writeTarget, hb]; split <;> rfl
  | limb b j => simp only [State.writeTarget, hb]; split <;> rfl
  | _ => rfl

/-- A transaction neither depends on nor changes the moves to come and the last answer (R93). -/
theorem State.respond_otherMoves (s : State) (a : Access) (rest : List Input) (r : Option Response) :
    State.respond { s with inputs := rest, resp := r } a =
      ({ (s.respond a).1 with inputs := rest, resp := r }, (s.respond a).2) := by
  cases ha : a.admitted with
  | false => simp [State.respond, ha]
  | true =>
    cases a with
    | read off size => simp [State.respond, ha, State.readTarget_otherMoves]
    | write off size v => simp [State.respond, ha, State.writeTarget_otherMoves]

@[simp] theorem State.writeTarget_inputs (s : State) (v : Word) (tg : Target) :
    (s.writeTarget v tg).inputs = s.inputs := by
  unfold State.writeTarget
  split <;> (try unfold State.writeCtrl) <;> (try split) <;> rfl

@[simp] theorem State.writeTarget_cfg (s : State) (v : Word) (tg : Target) : (s.writeTarget v tg).cfg = s.cfg := by
  unfold State.writeTarget
  split <;> (try unfold State.writeCtrl) <;> (try split) <;> rfl

/-- A write of whole limbs inside the slots keeps what the operand store's form demands: the canonical form, its place in the
window, and whole limbs. -/
theorem Memory.writeBytes_keeps {m : Memory} {a kmax : Nat} {bs : List Byte} (hwf : m.wf)
    (hin : ∀ c ∈ m, 0x10000 ≤ c.1 ∧ c.1 < 0x20000 ∧ c.1 % 0x1000 / 8 < kmax)
    (hwhole : ∀ c ∈ m, ∀ i < 8, (m.readByte (c.1 / 8 * 8 + i)).isSome = true) (ha : a % 8 = 0) (hl : bs.length % 8 = 0)
    (hslot : ∀ x, a ≤ x → x < a + bs.length → 0x10000 ≤ x ∧ x < 0x20000 ∧ x % 0x1000 / 8 < kmax) :
    (m.writeBytes a bs).wf ∧
    (∀ c ∈ m.writeBytes a bs, 0x10000 ≤ c.1 ∧ c.1 < 0x20000 ∧ c.1 % 0x1000 / 8 < kmax) ∧
    (∀ c ∈ m.writeBytes a bs, ∀ i < 8, ((m.writeBytes a bs).readByte (c.1 / 8 * 8 + i)).isSome = true) := by
  refine ⟨Memory.wf_writeBytes hwf a bs, fun c hc => ?_, fun c hc i hi => ?_⟩
  · rcases Memory.mem_writeBytes hc with h | h
    · exact hin c h
    · exact hslot _ h.1 h.2
  · rw [Memory.readByte_writeBytes]
    split
    · have : c.1 / 8 * 8 + i - a < bs.length := by omega
      simp [this]
    · rcases Memory.mem_writeBytes hc with h | h
      · exact hwhole c h i hi
      · exfalso; omega

end Sys2Proof.Machine
end

