-- ==== Sys2Proof/Laws/Encoding.lean ====
section
/-! SUPPORT. Command words against their fields: packing and unpacking are inverse to each other. -/

namespace Sys2Proof

theorem Fields.toWord_toNat (f : Fields) :
    f.toWord.toNat = f.op.toNat + f.rd.toNat * 2 ^ 8 + f.rs1.toNat * 2 ^ 12 + f.rs2.toNat * 2 ^ 16 + f.s.toNat * 2 ^ 20
      + f.rsv.toNat * 2 ^ 21 + f.rsvh.toNat * 2 ^ 32 := by
  have h1 := f.op.isLt
  have h2 := f.rd.isLt
  have h3 := f.rs1.isLt
  have h4 := f.rs2.isLt
  have h5 := f.s.isLt
  have h6 := f.rsv.isLt
  have h7 := f.rsvh.isLt
  rw [Fields.toWord, BitVec.toNat_ofNat]
  omega

/-- Unpacking a packed word gives the fields back (R121). -/
theorem Fields.ofWord_toWord (f : Fields) : Fields.ofWord f.toWord = f := by
  have h1 := f.op.isLt
  have h2 := f.rd.isLt
  have h3 := f.rs1.isLt
  have h4 := f.rs2.isLt
  have h5 := f.s.isLt
  have h6 := f.rsv.isLt
  have h7 := f.rsvh.isLt
  have hw := f.toWord_toNat
  obtain ⟨op, rd, rs1, rs2, s, rsv, rsvh⟩ := f
  simp only [Fields.ofWord, field, Fields.mk.injEq]
  simp only at h1 h2 h3 h4 h5 h6 h7 hw
  refine ⟨?_, ?_, ?_, ?_, ?_, ?_, ?_⟩ <;> apply BitVec.eq_of_toNat_eq <;> rw [BitVec.toNat_ofNat, hw] <;> omega

/-- Packing the unpacked fields gives the word back: no bit of a command word is outside the fields (R121). -/
theorem Fields.toWord_ofWord (w : Word) : (Fields.ofWord w).toWord = w := by
  apply BitVec.eq_of_toNat_eq
  have hw := w.isLt
  rw [Fields.toWord_toNat]
  simp only [Fields.ofWord, field, BitVec.toNat_ofNat]
  omega

end Sys2Proof
end

