-- ==== Sys2Proof/Laws/Exec.lean ====
section
/-! SUPPORT. What the commands can do, said once: the bounds of their results, and the inversion of exec and of the engine's
turn that later proofs cite instead of unfolding the meanings. -/

namespace Sys2Proof.Machine

theorem addMod_lt (n a b : Nat) : addMod n a b < 2 ^ n := Nat.mod_lt _ (by positivity)

theorem mulLow_lt (n a b : Nat) : mulLow n a b < 2 ^ n := Nat.mod_lt _ (by positivity)

theorem toNat_emod_two_pow_lt (n : Nat) (z : Int) : (z % (2 : Int) ^ n).toNat < 2 ^ n := by
  have h1 : 0 ≤ z % (2 : Int) ^ n := Int.emod_nonneg _ (by positivity)
  have h2 : z % (2 : Int) ^ n < (2 : Int) ^ n := Int.emod_lt_of_pos _ (by positivity)
  rw [Int.toNat_lt h1]
  exact_mod_cast h2

theorem subMod_lt (n a b : Nat) : subMod n a b < 2 ^ n := toNat_emod_two_pow_lt n _

theorem subFromTwo_lt (n a : Nat) : subFromTwo n a < 2 ^ n := toNat_emod_two_pow_lt n _

/-- The kernel functions over the integers (R13). -/
theorem subMod_cast (n a b : Nat) : ((subMod n a b : Nat) : Int) = ((a : Int) - b) % (2 : Int) ^ n :=
  Int.toNat_of_nonneg (Int.emod_nonneg _ (by positivity))

theorem subFromTwo_cast (n a : Nat) : ((subFromTwo n a : Nat) : Int) = (2 - (a : Int)) % (2 : Int) ^ n :=
  Int.toNat_of_nonneg (Int.emod_nonneg _ (by positivity))

theorem romSeed_lt (v : Nat) : romSeed v < 2 ^ 8 := BitVec.isLt _

theorem seedFull_lt (v : Nat) : seedFull v < 2 ^ 64 := mulLow_lt _ _ _

theorem Sequencer.lift_y_lt (n fuel : Nat) (q : Sequencer) (h : q.y < 2 ^ n) : (Sequencer.lift n fuel q).y < 2 ^ n := by
  induction fuel generalizing q with
  | zero => exact h
  | succ fuel ih =>
    rw [Sequencer.lift]
    split
    · exact ih _ (mulLow_lt _ _ _)
    · exact h

theorem two_pow_64_le {k : Nat} (hk : 1 ≤ k) : 2 ^ 64 ≤ 2 ^ (64 * k) := Nat.pow_le_pow_right (by omega) (by omega)

theorem invert_lt {k : Nat} (hk : 1 ≤ k) (a : Nat) : invert k a < 2 ^ (64 * k) :=
  Sequencer.lift_y_lt _ _ _ (lt_of_lt_of_le (seedFull_lt _) (two_pow_64_le hk))

/-- What a meaning that answers a next state has done (R162, R163): after reading its sources, which may have renewed the free
values, it completed with an error and wrote nothing, or it succeeded without a result (NOP), or it wrote an n-bit result to its
destination at a width 1 ≤ k ≤ KMAX. -/
inductive CompletesAs (s : State) (dest : Option Reg) (t : State) : Prop
  | error (b : Bool) (e : ErrCode) (he : e ≠ .ok) (ht : t = (s.afterRead b).complete e none)
  | nothing (hd : dest = none) (ht : t = s.complete .ok none)
  | result (b : Bool) (rd : Reg) (k v : Nat) (hd : dest = some rd) (h1 : 1 ≤ k) (hk : k ≤ s.cfg.kmax) (hv : v < 2 ^ (64 * k))
      (ht : t = (s.afterRead b).complete .ok (some { rd := rd, k := k, v := v }))

theorem State.withWidth_next {s t : State} {op : Nat → Outcome} (h : s.withWidth op = .next t) :
    t = s.complete .invalidWidth none ∨
      ∃ w kl, s.phase = .exec w kl ∧ 1 ≤ kl.toNat ∧ kl.toNat ≤ s.cfg.kmax ∧ op kl.toNat = .next t := by
  unfold State.withWidth at h
  split at h
  · cases h
  · next w kl hp =>
    split at h
    · exact .inl (by cases h; rfl)
    · exact .inr ⟨w, kl, hp, by omega, by omega, h⟩

/-- A meaning's operation runs at a width that passes the check (R163). -/
theorem State.withWidth_runs {s : State} {k : Nat} {w : Word} {kl : BitVec 16} {op : Nat → Outcome}
    (hp : s.phase = .exec w kl) (he : kl.toNat = k) (h1 : 1 ≤ k) (hk : k ≤ s.cfg.kmax) : s.withWidth op = op k := by
  unfold State.withWidth
  rw [hp]
  simp only
  rw [if_neg (by omega), he]

/-- A width of 0 or above KMAX ends a command with INVALID_WIDTH before the operation runs (R262). -/
theorem State.withWidth_invalid {s : State} {w : Word} {kl : BitVec 16} {op : Nat → Outcome}
    (hp : s.phase = .exec w kl) (h : kl.toNat = 0 ∨ s.cfg.kmax < kl.toNat) :
    s.withWidth op = .next (s.complete .invalidWidth none) := by
  unfold State.withWidth
  rw [hp]
  simp only
  rw [if_pos h]

/-- The inversion of exec: what a command can have done when it answers a next state. -/
theorem exec_next {i : Instr} {s t : State} (h : exec i s = .next t) : CompletesAs s i.dest t := by
  cases i with
  | nop =>
    simp only [exec, execNop] at h
    split at h
    · cases h
    · cases h; exact .nothing rfl rfl
  | addm rd rs1 rs2 =>
    rw [exec, execAddm] at h
    rcases State.withWidth_next h with rfl | ⟨w, kl, -, h1, hk, h⟩
    · exact .error true _ (by decide) rfl
    cases h
    exact .result _ rd _ _ rfl h1 hk (addMod_lt _ _ _) rfl
  | subm rd rs1 rs2 =>
    rw [exec, execSubm] at h
    rcases State.withWidth_next h with rfl | ⟨w, kl, -, h1, hk, h⟩
    · exact .error true _ (by decide) rfl
    cases h
    exact .result _ rd _ _ rfl h1 hk (subMod_lt _ _ _) rfl
  | mullo rd rs1 rs2 =>
    rw [exec, execMullo] at h
    rcases State.withWidth_next h with rfl | ⟨w, kl, -, h1, hk, h⟩
    · exact .error true _ (by decide) rfl
    cases h
    exact .result _ rd _ _ rfl h1 hk (mulLow_lt _ _ _) rfl
  | sub2 rd rs1 =>
    rw [exec, execSub2] at h
    rcases State.withWidth_next h with rfl | ⟨w, kl, -, h1, hk, h⟩
    · exact .error true _ (by decide) rfl
    cases h
    exact .result _ rd _ _ rfl h1 hk (subFromTwo_lt _ _) rfl
  | seed rd rs1 sel =>
    rw [exec, execSeed] at h
    rcases State.withWidth_next h with rfl | ⟨w, kl, -, h1, hk, h⟩
    · exact .error true _ (by decide) rfl
    simp only at h
    split at h
    · cases h; exact .error _ _ (by decide) rfl
    · cases h
      refine .result _ rd _ _ rfl h1 hk (lt_of_lt_of_le ?_ (two_pow_64_le h1)) rfl
      split
      · exact lt_trans (romSeed_lt _) (by norm_num)
      · exact seedFull_lt _
  | inv rd rs1 =>
    rw [exec, execInv] at h
    rcases State.withWidth_next h with rfl | ⟨w, kl, -, h1, hk, h⟩
    · exact .error true _ (by decide) rfl
    simp only at h
    split at h
    · cases h; exact .error _ _ (by decide) rfl
    · cases h; exact .result _ rd _ _ rfl h1 hk (invert_lt h1 _) rfl

/-- While a command executes, exec always answers a next state. -/
theorem exec_completes {s : State} {w : Word} {kl : BitVec 16} (hp : s.phase = .exec w kl) (i : Instr) :
    ∃ t, exec i s = .next t := by
  have key : ∀ op : Nat → Outcome, (∀ k, ∃ t, op k = .next t) → ∃ t, s.withWidth op = .next t := fun op hop => by
    unfold State.withWidth
    rw [hp]
    simp only
    split
    · exact ⟨_, rfl⟩
    · exact hop _
  cases i with
  | nop => rw [exec, execNop, hp]; exact ⟨_, rfl⟩
  | addm rd rs1 rs2 => rw [exec, execAddm]; exact key _ fun k => ⟨_, rfl⟩
  | subm rd rs1 rs2 => rw [exec, execSubm]; exact key _ fun k => ⟨_, rfl⟩
  | mullo rd rs1 rs2 => rw [exec, execMullo]; exact key _ fun k => ⟨_, rfl⟩
  | sub2 rd rs1 => rw [exec, execSub2]; exact key _ fun k => ⟨_, rfl⟩
  | seed rd rs1 sel =>
    rw [exec, execSeed]
    refine key _ fun k => ?_
    show ∃ t, (if (s.readLimb rs1 0).toNat % 2 = 0 then _ else _) = Host.Outcome.next t
    split <;> exact ⟨_, rfl⟩
  | inv rd rs1 =>
    rw [exec, execInv]
    refine key _ fun k => ?_
    show ∃ t, (if s.source rs1 k % 2 = 0 then _ else _) = Host.Outcome.next t
    split <;> exact ⟨_, rfl⟩

/-- The inversion of the engine's turn (R162, R279). -/
theorem engineTurn_next {s t : State} (h : engineTurn s = .next t) :
    (s.phase = .idle ∧ t = s) ∨
      ∃ w kl, s.phase = .exec w kl ∧
        ((decode w = none ∧ t = s.complete .illegal none) ∨ ∃ i, decode w = some i ∧ CompletesAs s i.dest t) := by
  unfold engineTurn at h
  split at h
  · next hp => cases h; exact .inl ⟨hp, rfl⟩
  · next w kl hp =>
    refine .inr ⟨w, kl, hp, ?_⟩
    split at h
    · next hd => cases h; exact .inl ⟨hd, rfl⟩
    · next i hd => exact .inr ⟨i, hd, exec_next h⟩

/-- The inversion of a host access: the port answered OKAY, and the state is what the transaction left. -/
theorem hostAccess_next {a : Access} {s t : State} (h : hostAccess a s = .next t) :
    (s.respond a).2 ≠ .berr ∧ t = { (s.respond a).1 with resp := some (s.respond a).2 } := by
  unfold hostAccess at h
  split at h
  · cases h
  · next hr => cases h; exact ⟨hr, rfl⟩

/-- A host access faults only with busError, on BERR (R82). -/
theorem hostAccess_fault {a : Access} {s : State} {f : Fault} (h : hostAccess a s = .fault f) :
    f = .busError ∧ (s.respond a).2 = .berr := by
  unfold hostAccess at h
  split at h
  · next hr => cases h; exact ⟨rfl, hr⟩
  · cases h

end Sys2Proof.Machine
end

