-- ==== Sys2Proof/Laws/PerInstr.lean ====
section
/-! SUPPORT. What holds of every command as syntax: its fields form a legal command, and its word carries exactly those fields
(R121, R122, R126). -/

open Sys2Proof

/-- The command's fields are well formed, and its word unpacks to them. -/
def Sys2Proof.Laws.EncodesFields.Statement (i : Instr) : Prop :=
  i.wellFormed = true ∧ Fields.ofWord (encode i) = i.fields

theorem Sys2Proof.Laws.EncodesFields.nop : Sys2Proof.Laws.EncodesFields.Statement .nop :=
  ⟨rfl, Fields.ofWord_toWord _⟩

theorem Sys2Proof.Laws.EncodesFields.addm (rd rs1 rs2 : Reg) :
    Sys2Proof.Laws.EncodesFields.Statement (.addm rd rs1 rs2) :=
  ⟨rfl, Fields.ofWord_toWord _⟩

theorem Sys2Proof.Laws.EncodesFields.subm (rd rs1 rs2 : Reg) :
    Sys2Proof.Laws.EncodesFields.Statement (.subm rd rs1 rs2) :=
  ⟨rfl, Fields.ofWord_toWord _⟩

theorem Sys2Proof.Laws.EncodesFields.mullo (rd rs1 rs2 : Reg) :
    Sys2Proof.Laws.EncodesFields.Statement (.mullo rd rs1 rs2) :=
  ⟨rfl, Fields.ofWord_toWord _⟩

theorem Sys2Proof.Laws.EncodesFields.sub2 (rd rs1 : Reg) : Sys2Proof.Laws.EncodesFields.Statement (.sub2 rd rs1) :=
  ⟨rfl, Fields.ofWord_toWord _⟩

theorem Sys2Proof.Laws.EncodesFields.seed (rd rs1 : Reg) (s : Bool) :
    Sys2Proof.Laws.EncodesFields.Statement (.seed rd rs1 s) :=
  ⟨rfl, Fields.ofWord_toWord _⟩

theorem Sys2Proof.Laws.EncodesFields.inv (rd rs1 : Reg) : Sys2Proof.Laws.EncodesFields.Statement (.inv rd rs1) :=
  ⟨rfl, Fields.ofWord_toWord _⟩
end

