-- ==== Sys2Proof/Laws/Step.lean ====
section
/-! SUPPORT. The inversion of step, and what every completion leaves alone. -/

namespace Sys2Proof.Machine

theorem State.completesWith_complete (s : State) (e : ErrCode) (res : Option Result) :
    s.completesWith (s.complete e res) e :=
  ⟨rfl, rfl, rfl, rfl, rfl, rfl, rfl, rfl, rfl, rfl⟩

theorem State.writesNothing_complete (s : State) (e : ErrCode) : s.writesNothing (s.complete e none) e :=
  ⟨s.completesWith_complete e none, fun x => by rw [State.complete_none_store]⟩

/-- A completion without a result, after any read of sources. -/
theorem State.writesNothing_afterRead (s : State) (b : Bool) (e : ErrCode) :
    s.writesNothing ((s.afterRead b).complete e none) e := by
  cases b <;> exact State.writesNothing_complete _ _

/-- A completion with an n-bit result, after any read of sources (R165). -/
theorem State.writesResult_afterRead (s : State) (b : Bool) (rd : Reg) {k v : Nat} (hk : k ≤ s.cfg.kmax)
    (hv : v < 2 ^ (64 * k)) :
    s.writesResult ((s.afterRead b).complete .ok (some { rd := rd, k := k, v := v })) rd k v := by
  refine ⟨⟨fun j hj => State.limb_writeback_low _ rd hj,
    fun j h1 h2 => State.limb_writeback_high _ rd h1 (by simpa using h2), State.big_writeback _ rd hv⟩, ?_, fun x hx => ?_⟩
  · cases b <;> exact State.completesWith_complete _ _ _
  · have := State.readByte_writeback_outside (s.afterRead b) rd (v := v) (x := x) (k := k) (by simpa using hk)
      (by simpa using hx)
    simpa using this

/-- What a completing command leaves alone (R162). -/
theorem CompletesAs.completesWith {s t : State} {dest : Option Reg} (h : CompletesAs s dest t) :
    s.completesWith t t.err := by
  cases h with
  | error b e _ ht => subst ht; cases b <;> exact s.completesWith_complete e none
  | nothing _ ht => subst ht; exact s.completesWith_complete _ _
  | result b rd k v _ _ _ _ ht => subst ht; cases b <;> exact s.completesWith_complete .ok (some ⟨rd, k, v⟩)

/-- What the engine's turn leaves alone, and that it ends EXEC (R162, R279). -/
theorem engineTurn_keeps {s t : State} (h : engineTurn s = .next t) :
    t.inputs = s.inputs ∧ t.cfg = s.cfg ∧ t.ovr = s.ovr ∧ t.ie = s.ie ∧ (s.busy = false → t = s) ∧
      (s.busy = true → t.busy = false ∧ t.done = true) ∧ t.phase = .idle := by
  rcases engineTurn_next h with ⟨hp, rfl⟩ | ⟨w, kl, hp, ⟨-, rfl⟩ | ⟨i, -, hc⟩⟩
  · refine ⟨rfl, rfl, rfl, rfl, fun _ => rfl, fun hb => ?_, hp⟩
    rw [(State.busy_eq_false_iff _).2 hp] at hb
    cases hb
  · exact ⟨rfl, rfl, rfl, rfl, fun hb => by simp [State.busy, hp] at hb, fun _ => ⟨rfl, rfl⟩, rfl⟩
  · obtain ⟨-, h1, h2, h3, h4, h5, -, -, h6, -⟩ := hc.completesWith
    exact ⟨h6, h3, h5, h4, fun hb => by simp [State.busy, hp] at hb, fun _ => ⟨by simp [State.busy, h2], h1⟩, h2⟩

/-- The inversion of step (R93): the engine's turn, a host access, or a hard reset. -/
theorem step_cases {s t : State} (h : step s = .next t) :
    (s.engineNext ∧ engineTurn { s with inputs := s.inputs.tail, resp := none } = .next t) ∨
    (∃ a rest, s.inputs = .access a :: rest ∧ hostAccess a { s with inputs := rest, resp := none } = .next t) ∨
    (∃ rest, s.inputs = .hardReset :: rest ∧ t = State.hardResetOf s.cfg (s.free + 1) rest) := by
  unfold step at h
  split at h
  · next he =>
    left
    refine ⟨.inl he, ?_⟩
    rw [← h, he]
    congr 1
  · next i rest he =>
    cases i with
    | access a => exact .inr (.inl ⟨a, rest, he, h⟩)
    | engineTurn => left; refine ⟨.inr ⟨rest, he⟩, ?_⟩; rw [he]; exact h
    | hardReset =>
      right; right
      refine ⟨rest, he, ?_⟩
      simp only [takeInput] at h
      cases h
      rfl

theorem State.nextAccess_of {s : State} {a : Access} {rest : List Input} (h : s.inputs = .access a :: rest) :
    s.nextAccess = some a := by
  unfold State.nextAccess; rw [h]

theorem State.nextAccess_eq_some {s : State} {a : Access} (h : s.nextAccess = some a) :
    ∃ rest, s.inputs = .access a :: rest := by
  unfold State.nextAccess at h
  split at h
  · next b rest hb => cases h; exact ⟨rest, hb⟩
  · cases h

/-- A running command's inputs: the step that runs a decoded word on the engine's turn (R162). -/
theorem step_readyToComplete (s : State) (w : Word) :
    step (s.readyToComplete w) = engineTurn { s.accept w with resp := none } := rfl

end Sys2Proof.Machine
end

