-- ==== Sys2Proof/Tests/Slice0.lean ====
section
/-! SUPPORT. Tests with results from the spec's own tables (95_test_vectors.md), the smoke test of WellFormed, and for each
statement with hypotheses a witness that meets them. -/

open Sys2Proof Sys2Proof.Machine

namespace Sys2Proof.Tests

/-- A small instance. -/
def cfg2 : Config := { kmax := 2, base := 0x20000 }

/-- An idle instance with the given limbs written and WIDTH.K = k. -/
def idleWith (k : Nat) (limbs : List (Reg × Nat × Word)) : State :=
  { limbs.foldl (fun s x => s.setLimb x.1 x.2.1 x.2.2) (State.hardResetOf cfg2 0 []) with width := BitVec.ofNat 16 k }

/-- The same with a command word accepted. -/
def busyWith (k : Nat) (w : Word) (limbs : List (Reg × Nat × Word)) : State := (idleWith k limbs).accept w

/-- The same with one move waiting. -/
def facing (i : Input) (s : State) : State := { s with inputs := [i] }

/-- The limbs of a register after a step. -/
def limbsAfter (o : Outcome) (r : Reg) : Option (List (Option Word)) :=
  match o with
  | .next t => some [t.limb r 0, t.limb r 1]
  | _ => none

/-- STATUS after a step. -/
def statusAfter (o : Outcome) : Option Word :=
  match o with
  | .next t => some t.statusWord
  | _ => none

/-- The host port's answer after a step. -/
def respAfter (o : Outcome) : Option Response :=
  match o with
  | .next t => t.resp
  | _ => none

/-! ### WellFormed refuses an ill-formed term for each of its checks (R122, R126) -/

theorem test_wf_refuses_nop_with_rd : Fields.wellFormed ⟨0x00, 1, 0, 0, 0, 0, 0⟩ = false := by decide
theorem test_wf_refuses_nop_with_rs1 : Fields.wellFormed ⟨0x00, 0, 1, 0, 0, 0, 0⟩ = false := by decide
theorem test_wf_refuses_nop_with_rs2 : Fields.wellFormed ⟨0x00, 0, 0, 1, 0, 0, 0⟩ = false := by decide
theorem test_wf_refuses_nop_with_s : Fields.wellFormed ⟨0x00, 0, 0, 0, 1, 0, 0⟩ = false := by decide
theorem test_wf_refuses_r3_with_s : Fields.wellFormed ⟨0x02, 3, 1, 2, 1, 0, 0⟩ = false := by decide
theorem test_wf_refuses_r2_with_rs2 : Fields.wellFormed ⟨0x06, 1, 0, 1, 0, 0, 0⟩ = false := by decide
theorem test_wf_refuses_r2_with_s : Fields.wellFormed ⟨0x04, 1, 0, 0, 1, 0, 0⟩ = false := by decide
theorem test_wf_refuses_r2s_with_rs2 : Fields.wellFormed ⟨0x05, 2, 1, 1, 0, 0, 0⟩ = false := by decide
theorem test_wf_refuses_rsv : Fields.wellFormed ⟨0x01, 0, 0, 0, 0, 0x80, 0⟩ = false := by decide
theorem test_wf_refuses_rsvh : Fields.wellFormed ⟨0x00, 0, 0, 0, 0, 0, 1⟩ = false := by decide
theorem test_wf_refuses_reserved_opcode : Fields.wellFormed ⟨0x07, 0, 0, 0, 0, 0, 0⟩ = false := by decide
theorem test_wf_accepts_seed8 : Fields.wellFormed ⟨0x05, 2, 1, 0, 1, 0, 0⟩ = true := by decide

/-! ### Decoding, bit by bit from R121 and R123: {rsvh, rsv, s, rs2, rs1, rd, op} -/

theorem test_decode_nop : decode (0#32 ++ 0#11 ++ 0#1 ++ 0x0#4 ++ 0x0#4 ++ 0x0#4 ++ 0x00#8) = some .nop := by decide
theorem test_decode_addm : decode (0#32 ++ 0#11 ++ 0#1 ++ 0x2#4 ++ 0x1#4 ++ 0x3#4 ++ 0x01#8) = some (.addm 3 1 2) := by decide
theorem test_decode_subm : decode (0#32 ++ 0#11 ++ 0#1 ++ 0x2#4 ++ 0x1#4 ++ 0x3#4 ++ 0x02#8) = some (.subm 3 1 2) := by decide
theorem test_decode_mullo : decode (0#32 ++ 0#11 ++ 0#1 ++ 0xE#4 ++ 0xD#4 ++ 0xF#4 ++ 0x03#8) = some (.mullo 15 13 14) := by decide
theorem test_decode_sub2 : decode (0#32 ++ 0#11 ++ 0#1 ++ 0x0#4 ++ 0x1#4 ++ 0x2#4 ++ 0x04#8) = some (.sub2 2 1) := by decide
theorem test_decode_seed : decode (0#32 ++ 0#11 ++ 0#1 ++ 0x0#4 ++ 0x1#4 ++ 0x2#4 ++ 0x05#8) = some (.seed 2 1 false) := by decide
theorem test_decode_seed8 : decode (0#32 ++ 0#11 ++ 1#1 ++ 0x0#4 ++ 0x1#4 ++ 0x2#4 ++ 0x05#8) = some (.seed 2 1 true) := by decide
theorem test_decode_inv : decode (0#32 ++ 0#11 ++ 0#1 ++ 0x0#4 ++ 0x0#4 ++ 0x1#4 ++ 0x06#8) = some (.inv 1 0) := by decide

/-- The ILLEGAL words of 95_test_vectors.md section 2.1. -/
theorem test_decode_illegal_words :
    [0x100, 0x121301, 0x1F0204, 0x11205, 0x10106, 0x100106, 0x10000001, 0x100000000, 0x07, 0xFF, 0xFFFFFFFFFFFFFFFF].map
      (fun w => decode (BitVec.ofNat 64 w)) = List.replicate 11 none := by decide

theorem test_decodeTableWord_mullo : decodeTableWord 64 0x21303 = some (.mullo 3 1 2) := by decide

/-! ### The commands, from 95_test_vectors.md sections 2.3 to 2.5 -/

/-- V-ADD-1. -/
theorem test_addm_carries_across_limbs :
    limbsAfter (step (busyWith 2 0x21301 [(1, 0, 0xFFFFFFFFFFFFFFFF), (1, 1, 0), (2, 0, 1), (2, 1, 0)])) 3 =
      some [some 0, some 1] := by decide
/-- V-ADD-4: limbs k and above are ignored in the sources and cleared in rd. -/
theorem test_addm_clears_high_limbs :
    limbsAfter (step (busyWith 1 0x21301 [(1, 0, 1), (1, 1, 0xAAAA), (2, 0, 2), (2, 1, 0xBBBB), (3, 1, 7)])) 3 =
      some [some 3, some 0] := by decide
/-- V-SUB-1. -/
theorem test_subm_borrows_across_limbs :
    limbsAfter (step (busyWith 2 0x21302 [(1, 0, 0), (1, 1, 1), (2, 0, 1), (2, 1, 0)])) 3 =
      some [some 0xFFFFFFFFFFFFFFFF, some 0] := by decide
/-- V-SUB-3. -/
theorem test_subm_wraps :
    limbsAfter (step (busyWith 1 0x21302 [(1, 0, 5), (2, 0, 7)])) 3 = some [some 0xFFFFFFFFFFFFFFFE, some 0] := by
  decide
/-- V-MUL-2. -/
theorem test_mullo_high_word_moves_up :
    limbsAfter (step (busyWith 2 0x21303 [(1, 0, 0xFFFFFFFFFFFFFFFF), (1, 1, 0), (2, 0, 0xFFFFFFFFFFFFFFFF), (2, 1, 0)])) 3 =
      some [some 1, some 0xFFFFFFFFFFFFFFFE] := by decide
/-- V-MUL-4: the square in place. -/
theorem test_mullo_in_place :
    limbsAfter (step (busyWith 1 0x11103 [(1, 0, 0x100000001)])) 1 = some [some 0x200000001, some 0] := by decide
/-- V-S2-5. -/
theorem test_sub2_wraps :
    limbsAfter (step (busyWith 2 0x1204 [(1, 0, 3), (1, 1, 0)])) 2 =
      some [some 0xFFFFFFFFFFFFFFFF, some 0xFFFFFFFFFFFFFFFF] := by decide
/-- V-S2-3. -/
theorem test_sub2_of_two : limbsAfter (step (busyWith 1 0x1204 [(1, 0, 2)])) 2 = some [some 0, some 0] := by decide
/-- V-SEED-6, with nothing written to limb 1 of the source at k = 2. -/
theorem test_seed_reads_limb_0_only :
    limbsAfter (step (busyWith 2 0x1205 [(1, 0, 0x123456789ABCDEF1)])) 2 = some [some 0x77B73D68B2CC5211, some 0] := by
  decide
/-- V-SEED-7. -/
theorem test_seed8_reads_the_rom :
    limbsAfter (step (busyWith 1 0x101205 [(1, 0, 0x123456789ABCDEF1)])) 2 = some [some 0x11, some 0] := by decide
/-- V-SEED-8. -/
theorem test_seed_of_even :
    statusAfter (step (busyWith 1 0x1205 [(1, 0, 2)])) = some 0x032 := by decide
/-- V-INV-4. -/
theorem test_inv_of_one_one :
    limbsAfter (step (busyWith 2 0x0106 [(0, 0, 1), (0, 1, 1)])) 1 = some [some 1, some 0xFFFFFFFFFFFFFFFF] := by
  decide
/-- V-INV-9: an even source leaves rd as it was. -/
theorem test_inv_of_even_keeps_rd :
    limbsAfter (step (busyWith 2 0x0106 [(0, 0, 2), (0, 1, 0), (1, 0, 9)])) 1 = some [some 9, none] := by decide
/-- V-INV-12: INVALID_WIDTH beats NOT_INVERTIBLE. -/
theorem test_inv_width_beats_even : statusAfter (step (busyWith 0 0x0106 [(0, 0, 2), (0, 1, 0)])) = some 0x022 := by
  decide
/-- R167's example. -/
theorem test_nop_at_width_0 : statusAfter (step (busyWith 0 0 [])) = some 0x002 := by decide
/-- V-INV-7's round-by-round values at k = 4: y_1, and the result y_2. -/
theorem test_inv_rounds :
    let a := limbsValue [0x0123456789ABCDEF, 0xFEDCBA9876543210, 0x0F1E2D3C4B5A6978, 0x8796A5B4C3D2E1F0]
    (Sequencer.after 256 a 1).y =
        limbsValue [0x010FEF010FEF010F, 0x1DD152B7D7B251DE, 0xF959BC864421132E, 0x1170422F1B344CC6] ∧
      invert 4 a = limbsValue [0x010FEF010FEF010F, 0x1DD152B7D7B251DE, 0x9BD909D253B5466A, 0x4E25374C4B5EC293] := by
  decide
/-- The SeedFull values of 95_test_vectors.md section 2.4 for v = 3. -/
theorem test_seed_steps :
    (List.range 4).map (seedAfter 3) = [0xAB, 0xFFFFFFFFFFFEAAAB, 0xFFFFFFFAAAAAAAAB, 0xAAAAAAAAAAAAAAAB] := by decide
/-- The datapath on V-MUL-2, V-SUB-1 and V-S2-5. -/
theorem test_datapath :
    mulLimbs [0xFFFFFFFFFFFFFFFF, 0] [0xFFFFFFFFFFFFFFFF, 0] = [1, 0xFFFFFFFFFFFFFFFE] ∧
      subChain [0, 1] [1, 0] 0 = [0xFFFFFFFFFFFFFFFF, 0] ∧
      subFromTwoLimbs [3, 0] = [0xFFFFFFFFFFFFFFFF, 0xFFFFFFFFFFFFFFFF] := by decide

/-! ### The host window, from 95_test_vectors.md sections 2.2 and 2.6 -/

theorem test_caps : respAfter (step (facing (.access (.read 0 8)) State.reset)) = some (.readOkay 0x0000000840100040) := by
  decide
theorem test_read_beyond_kmax_is_zero :
    respAfter (step (facing (.access (.read 0x10200 8)) State.reset)) = some (.readOkay 0) := by decide
theorem test_busy_limb_read_sets_ovr :
    statusAfter (step (facing (.access (.read 0x10000 8)) (busyWith 1 0x0106 [(0, 0, 5)]))) = some 0x101 := by decide
/-- V-RST-2. -/
theorem test_soft_reset_drops_inv :
    limbsAfter (step (facing (.access (.write 8 8 1)) (busyWith 2 0x0106 [(0, 0, 5), (0, 1, 0), (1, 0, 7), (1, 1, 7)]))) 1 =
      some [some 7, some 7] := by decide
/-- V-LC-1: between accept and completion STATUS is 0x001. -/
theorem test_accept_sets_busy :
    statusAfter (step (facing (.access (.write 0x20 8 0)) (idleWith 0 []))) = some 0x001 := by decide
/-- The completion with IE = 1 gives 0x202. -/
theorem test_completion_raises_irq : statusAfter (step { busyWith 0 0 [] with ie := true }) = some 0x202 := by decide
/-- R81: the window's addresses at BASE = 0x20000. -/
theorem test_window_offset :
    cfg2.windowOffset 0x30008 = some 0x10008 ∧ cfg2.windowOffset 0x40000 = none ∧ cfg2.windowOffset 0x1FFFF = none := by
  decide
/-- The loader of log entry 4 runs the word it is given. -/
theorem test_fetch_word_runs : statusAfter (step (State.reset.withFetchWord 64 0x07)) = some 0x012 := by decide

/-! ### Witnesses: for each statement with hypotheses, a state and operands that meet them -/

/-- A state that runs SUBM b3, b1, b2 at k = 2, its sources written. -/
def runSubm : State := busyWith 2 0x21302 [(1, 0, 5), (1, 1, 0), (2, 0, 7), (2, 1, 1)]

theorem runSubm_runsAt : runSubm.runsAt 2 := ⟨⟨0x21302, 2, rfl, rfl⟩, by decide, by decide⟩

theorem witness_HardResetSetsEveryField : (facing .hardReset runSubm).inputs = .hardReset :: [] := rfl

theorem witness_SoftResetKeepsTheOperandStore :
    BitVec.getLsbD (3 : Word) 0 = true ∧ runSubm.busy = true ∧ runSubm.limb 1 0 ≠ none := by decide

theorem witness_BadAccessGetsBusError :
    ¬ ((Access.read 0 4).size = 8 ∧ (Access.read 0 4).off % 8 = 0 ∧ (Access.read 0 4).off < 0x20000) ∧
      ¬ ((Access.read 4 8).size = 8 ∧ (Access.read 4 8).off % 8 = 0 ∧ (Access.read 4 8).off < 0x20000) ∧
      ¬ ((Access.write 0x20000 8 0).size = 8 ∧ (Access.write 0x20000 8 0).off % 8 = 0 ∧
        (Access.write 0x20000 8 0).off < 0x20000) := by decide

theorem witness_AdmittedAccessGetsOkay :
    State.reset.respond (.read 0x1FFF8 8) = (State.reset, .readOkay 0) ∧
      State.reset.respond (.write 0 8 1) = (State.reset, .writeOkay) ∧
      State.reset.respond (.read 0 4) = (State.reset, .berr) := ⟨rfl, rfl, rfl⟩

theorem witness_AdmittedAccessIsAStep :
    (Access.read 0 8).admitted = true ∧
      (facing (.access (.read 0 8)) State.reset).inputs = .access (.read 0 8) :: [] := ⟨rfl, rfl⟩

theorem witness_CapsDescribesTheInstance : State.reset.cfg.wf ∧ State.reset.cfg.kmax = 64 := by decide

theorem witness_CtrlWriteResetsOrEnables :
    BitVec.getLsbD (3 : Word) 0 = true ∧ BitVec.getLsbD (2 : Word) 0 = false := by decide

theorem witness_StatusWriteOnlyClears :
    BitVec.getLsbD (0x102 : Word) 1 = true ∧ BitVec.getLsbD (0x100 : Word) 1 = false ∧ BitVec.getLsbD (0x102 : Word) 8 = true ∧
      BitVec.getLsbD (0x002 : Word) 8 = false := by decide

theorem witness_WidthWriteStoresLowBits : (idleWith 1 []).busy = false ∧ runSubm.busy = true := by decide

theorem witness_CmdWriteAcceptsWhenIdle : (idleWith 1 []).busy = false ∧ runSubm.busy = true := by decide

/-- The clauses of BusyAccessesAreRefused at the ends of their ranges. -/
theorem witness_BusyAccessesAreRefused :
    runSubm.busy = true ∧ runSubm.cfg.kmax = 2 ∧
      targetOf runSubm.cfg 0x20 = .cmd ∧ targetOf runSubm.cfg 0x28 = .reserved ∧ targetOf runSubm.cfg 0xFFF8 = .reserved ∧
      targetOf runSubm.cfg 0x10000 = .limb 0 0 ∧ targetOf runSubm.cfg 0x1F008 = .limb 15 1 ∧
      targetOf runSubm.cfg 0x1F010 = .reserved ∧ targetOf runSubm.cfg 0x1FFF8 = .reserved := by decide

theorem witness_BusyAccessesAreRefused_idle :
    (idleWith 1 []).busy = false ∧ (idleWith 1 []).ovr = false ∧
      (idleWith 1 []).respond (.write 0x10000 8 5) = ((idleWith 1 []).setLimb 0 0 5, .writeOkay) := ⟨rfl, rfl, rfl⟩

theorem witness_ReservedOffsetsReadZero :
    0x28 % 8 = 0 ∧ 0x28 ≤ 0xFFFF ∧ 0xFFF8 % 8 = 0 ∧ 0xFFF8 ≤ 0xFFFF ∧ 0x1FFF8 % 8 = 0 ∧
      runSubm.cfg.kmax ≤ 0x1FFF8 / 8 % 512 ∧ 0x10010 % 8 = 0 ∧ runSubm.cfg.kmax ≤ 0x10010 / 8 % 512 := by decide

theorem witness_LimbWriteIsReadBack :
    State.reset.cfg.kmax ≤ 512 ∧ 63 < State.reset.cfg.kmax ∧ State.reset.busy = false := by decide

theorem witness_UnwrittenLimbReadGetsFreeValue :
    (facing (.access (.read 0x11008 8)) (idleWith 2 [(1, 0, 5)])).cfg.kmax ≤ 512 ∧
      1 < (facing (.access (.read 0x11008 8)) (idleWith 2 [(1, 0, 5)])).cfg.kmax ∧
      (facing (.access (.read 0x11008 8)) (idleWith 2 [(1, 0, 5)])).busy = false ∧
      (facing (.access (.read 0x11008 8)) (idleWith 2 [(1, 0, 5)])).inputs =
        .access (.read (0x10000 + 0x1000 * (1 : Reg).val + 8 * 1) 8) :: [] ∧
      (facing (.access (.read 0x11008 8)) (idleWith 2 [(1, 0, 5)])).limb 1 1 = none ∧ (idleWith 2 [(1, 0, 5)]).limb 1 0 = some 5 := by
  decide

theorem witness_LimbBytesAreLittleEndian : (idleWith 2 [(1, 1, 0x0123456789ABCDEF)]).limb 1 1 = some 0x0123456789ABCDEF ∧
    (idleWith 2 [(1, 1, 0x0123456789ABCDEF)]).store.readByte 0x11008 = some 0xEF := by decide

theorem witness_RegisterValueIsSumOfLimbs :
    (∀ j < 2, runSubm.limb 2 j = some (if j = 0 then 7 else 1)) ∧ runSubm.limb 4 0 = none := by decide

theorem witness_ReadsAreIdempotent :
    runSubm.respond (.read 0x11000 8) = (runSubm.overrun, .readOkay 0) ∧
      State.reset.respond (.read 0x018 8) = (State.reset, .readOkay 0) ∧ State.reset.limb 1 0 = none ∧
      State.reset.respond (.read 0x11000 8) = (State.reset, .readOkay (State.reset.readLimb 1 0)) := ⟨rfl, rfl, rfl, rfl⟩

theorem witness_StepRunsTheDecodedCommand :
    runSubm.phase = .exec 0x21302 2 ∧ decode 0x21302 = some (.subm 3 1 2) ∧ runSubm.inputs = [] ∧
      (facing .engineTurn runSubm).phase = .exec 0x21302 2 ∧ (facing .engineTurn runSubm).inputs = .engineTurn :: [] :=
  ⟨rfl, by decide, rfl, rfl, rfl⟩

theorem witness_StepTakesOneMove :
    (facing (.access (.read 0 8)) runSubm).inputs = .access (.read 0 8) :: [] ∧ State.reset.phase = .idle ∧
      State.reset.inputs = [] ∧ (facing .engineTurn State.reset).inputs = .engineTurn :: [] ∧
      ∃ t, step State.reset = .next t := ⟨rfl, rfl, rfl, rfl, _, rfl⟩

/-- A reset instance with a reserved opcode accepted meets the invariant. -/
theorem witness_IllegalWordCompletesWithCode :
    (busyWith 2 0x07 []).phase = .exec 0x07 2 ∧ decode 0x07 = none ∧ (busyWith 2 0x07 []).Inv :=
  ⟨rfl, by decide, ⟨by decide, by decide, by decide, by decide, ⟨rfl, rfl, rfl, rfl⟩⟩⟩

theorem witness_WidthIsCheckedBeforeOperands :
    Instr.inv 1 0 ≠ .nop ∧ (busyWith 0 0x0106 []).badWidth ∧ (busyWith 3 0x0106 []).badWidth :=
  ⟨by decide, ⟨0x0106, 0, rfl, by decide⟩, ⟨0x0106, 3, rfl, by decide⟩⟩

theorem witness_ErrorWritesNoRegister :
    (busyWith 1 0x0106 [(0, 0, 2)]).busy = true ∧
      ∃ t, engineTurn (busyWith 1 0x0106 [(0, 0, 2)]) = .next t ∧ t.err ≠ .ok := ⟨rfl, _, rfl, by decide⟩

theorem witness_ChecksRunInOrder :
    (busyWith 0 0x07 []).phase = .exec 0x07 0 ∧ decode 0x07 = none ∧
      (busyWith 0 0x0106 []).phase = .exec 0x0106 0 ∧ decode 0x0106 = some (.inv 1 0) ∧ (busyWith 0 0x0106 []).badWidth ∧
      decode 0x1205 = some (.seed 2 1 false) ∧ (busyWith 1 0x1205 [(1, 0, 2)]).limb 1 0 = some 2 ∧
      (busyWith 1 0x0106 [(0, 0, 10)]).big 0 1 = some 10 :=
  ⟨rfl, by decide, rfl, by decide, ⟨_, _, rfl, by decide⟩, by decide, by decide, by decide⟩

theorem witness_ChecksRunInOrder_nop :
    (busyWith 3 0 []).phase = .exec 0 3 ∧ decode 0 = some .nop ∧
      ∃ t, engineTurn (busyWith 1 0x0106 [(0, 0, 10)]) = .next t ∧ t.err = .notInvertible :=
  ⟨rfl, by decide, _, rfl, rfl⟩

theorem witness_ChecksRunInOrder_width : ¬ (busyWith 1 0x1205 [(1, 0, 2)]).badWidth := by
  rintro ⟨w, kl, h, hb⟩
  cases h
  revert hb
  decide

theorem witness_CompletionFrame :
    (∃ t, exec (.subm 3 1 2) runSubm = .next t) ∧ (Instr.subm 3 1 2).dest = some 3 ∧ (∃ t, exec .nop runSubm = .next t) ∧
      Instr.nop.dest = none := ⟨⟨_, rfl⟩, rfl, ⟨_, rfl⟩, rfl⟩

/-- A width at which every command runs, with a register that nothing has written (B4). -/
theorem witness_EveryCommandRunsOnUnwrittenLimbs : runSubm.runsAt 2 ∧ runSubm.limb 4 0 = none ∧ runSubm.limb 4 1 = none :=
  ⟨runSubm_runsAt, by decide, by decide⟩

/-- A written limb 0 decides the parity that SEED and INV test, whatever the free values are. -/
theorem witness_EveryCommandRunsOnUnwrittenLimbs_parity :
    (runSubm.readLimb 1 0).toNat % 2 = 1 ∧ runSubm.source 1 2 % 2 = 1 ∧ (runSubm.readLimb 1 1).toNat % 2 = 0 ∧
      (busyWith 1 0x0106 [(0, 0, 2)]).source 0 1 % 2 = 0 := by decide

/-- Two states that differ in a register that SUBM b3, b1, b2 does not read. -/
theorem witness_OnlyTheSourceLimbsDecide :
    runSubm.runsAt 2 ∧ (runSubm.setLimb 5 0 1).phase = runSubm.phase ∧ (runSubm.setLimb 5 0 1).cfg = runSubm.cfg ∧
      (∀ r ∈ (Instr.subm 3 1 2).sources, ∀ j < (Instr.subm 3 1 2).limbsRead 2,
        (runSubm.setLimb 5 0 1).readLimb r j = runSubm.readLimb r j) ∧
      runSubm.setLimb 5 0 1 ≠ runSubm ∧ ∃ t, exec (.subm 3 1 2) runSubm = .next t :=
  ⟨runSubm_runsAt, rfl, rfl, by decide, by decide, _, rfl⟩

theorem witness_NopCompletes : (busyWith 0 0 []).phase = .exec 0 0 ∧ (busyWith 3 0 []).phase = .exec 0 3 := ⟨rfl, rfl⟩

/-- For ADDM, SUBM and MULLO. -/
theorem witness_AddmWritesModularSum :
    runSubm.runsAt 2 ∧ runSubm.big 1 2 = some 5 ∧ runSubm.big 2 2 = some (2 ^ 64 + 7) :=
  ⟨runSubm_runsAt, by decide, by decide⟩

theorem witness_AddmWritesModularSum_next :
    (∃ t, exec (.addm 3 1 2) runSubm = .next t) ∧ (∃ t, exec (.subm 3 1 2) runSubm = .next t) ∧
      (∃ t, exec (.mullo 3 1 2) runSubm = .next t) ∧ ∃ t, exec (.sub2 3 1) runSubm = .next t :=
  ⟨⟨_, rfl⟩, ⟨_, rfl⟩, ⟨_, rfl⟩, ⟨_, rfl⟩⟩

theorem witness_SubmWritesModularDifference :
    runSubm.runsAt 2 ∧ runSubm.big 1 2 = some 5 ∧ runSubm.big 2 2 = some (2 ^ 64 + 7) := witness_AddmWritesModularSum

theorem witness_MulloWritesLowProduct :
    runSubm.runsAt 2 ∧ runSubm.big 1 2 = some 5 ∧ runSubm.big 2 2 = some (2 ^ 64 + 7) := witness_AddmWritesModularSum

theorem witness_Sub2WritesTwoMinusSource : runSubm.runsAt 2 ∧ runSubm.big 1 2 = some 5 :=
  ⟨runSubm_runsAt, by decide⟩

theorem witness_SeedWritesLimbInverse :
    runSubm.runsAt 2 ∧ runSubm.limb 1 0 = some 5 ∧ (5 : Word).toNat % 2 = 1 ∧
      runSubm.limb 1 1 = some 0 ∧ (0 : Word).toNat % 2 = 0 ∧ (busyWith 1 0x1205 [(1, 0, 2)]).runsAt 1 ∧
      (busyWith 1 0x1205 [(1, 0, 2)]).limb 1 0 = some 2 ∧ (2 : Word).toNat % 2 = 0 :=
  ⟨runSubm_runsAt, by decide, by decide, by decide, by decide, ⟨⟨_, _, rfl, rfl⟩, by decide, by decide⟩,
    by decide, by decide⟩

theorem witness_SeedWritesLimbInverse_next : ∃ t, exec (.seed 2 1 true) runSubm = .next t := ⟨_, rfl⟩

theorem witness_InvWritesModularInverse :
    runSubm.runsAt 2 ∧ runSubm.big 1 2 = some 5 ∧ 5 % 2 = 1 ∧ (busyWith 1 0x0106 [(0, 0, 2)]).runsAt 1 ∧
      (busyWith 1 0x0106 [(0, 0, 2)]).big 0 1 = some 2 ∧ 2 % 2 = 0 ∧ ∃ t, exec (.inv 4 1) runSubm = .next t :=
  ⟨runSubm_runsAt, by decide, by decide, ⟨⟨_, _, rfl, rfl⟩, by decide, by decide⟩, by decide, by decide,
    _, rfl⟩

theorem witness_AdderChainIsModularAddition :
    ([0xFFFFFFFFFFFFFFFF, 1] : List Word).length = ([1, 0xFFFFFFFFFFFFFFFF] : List Word).length := rfl

theorem witness_SubtractorChainIsModularSubtraction : ([0, 1] : List Word).length = ([1, 0] : List Word).length := rfl

theorem witness_LimbMultiplierIsLowProduct : ([3, 4] : List Word).length = ([5, 6] : List Word).length := rfl

theorem witness_SubFromTwoIsComplementPlusThree : 2 ^ (64 * 2) - 1 < 2 ^ (64 * 2) := by decide

theorem witness_KernelLaws : 2 ^ 127 < 2 ^ (64 * 2) ∧ 5 < 2 ^ (64 * 2) ∧ 2 ^ 128 - 1 < 2 ^ (64 * 2) ∧ 1 ≤ 2 := by decide

theorem witness_SeedStepsDoubleThePrecision : 2 ^ 64 - 1 < 2 ^ 64 ∧ (2 ^ 64 - 1) % 2 = 1 := by decide

theorem witness_SeedLaws : 0x123456789ABCDEF1 < 2 ^ 64 ∧ 0x123456789ABCDEF1 % 2 = 1 := by decide

theorem witness_RoundCountDependsOnWidthOnly : 1 ≤ 1 ∧ 1 ≤ 64 := by decide

/-- An odd source of three limbs, for the statements about the lifting; at k = 3 the last doubling is partial. -/
theorem witness_PrecisionHoldsAtEveryRound : 1 ≤ 3 ∧ 2 ^ 128 + 2 ^ 64 + 1 < 2 ^ (64 * 3) ∧ (2 ^ 128 + 2 ^ 64 + 1) % 2 = 1 := by
  decide

theorem witness_InvertIsTheUniqueInverse :
    1 ≤ 2 ∧ 2 ^ 64 + 1 < 2 ^ (64 * 2) ∧ (2 ^ 64 + 1) % 2 = 1 ∧ 2 ^ 128 - 2 ^ 64 + 1 < 2 ^ (64 * 2) ∧
      mulLow (64 * 2) (2 ^ 64 + 1) (2 ^ 128 - 2 ^ 64 + 1) = 1 := by decide

theorem witness_InversionLaws : 1 ≤ 3 ∧ 2 ^ 128 + 5 < 2 ^ (64 * 3) ∧ (2 ^ 128 + 5) % 2 = 1 ∧ 1 ≤ 2 ∧ 2 ≤ 3 := by decide

theorem witness_HostDrivenChainEndsWithInv : 1 ≤ 2 ∧ 5 < 2 ^ (64 * 2) ∧ 5 % 2 = 1 := by decide

/-- A running command with its sources written meets the invariant, and its step answers a next state. -/
theorem witness_StepKeepsInvariant : runSubm.Inv ∧ ∃ t, step runSubm = .next t :=
  ⟨⟨by decide, by decide, by decide, by decide, ⟨rfl, rfl, rfl, rfl⟩⟩, _, rfl⟩

theorem witness_ResetMeetsInvariant : cfg2.wf := by decide

/-- OVR set by a refused CMD write, and cleared by a STATUS write. -/
theorem witness_OverrunIsSetByRefusalOnly :
    (∃ t, step (facing (.access (.write 0x020 8 0)) runSubm) = .next t ∧ runSubm.ovr = false ∧ t.ovr = true) ∧
      refusedWhenBusy runSubm.cfg (.write 0x020 8 0) ∧
      ∃ t, step (facing (.access (.write 0x010 8 0x100)) runSubm.overrun) = .next t ∧ runSubm.overrun.ovr = true ∧
        t.ovr = false :=
  ⟨⟨_, rfl, rfl, rfl⟩, ⟨rfl, trivial⟩, _, rfl, rfl, rfl⟩

/-- `irq` raised by a completion, raised by a CTRL write, and dropped by a STATUS write. -/
theorem witness_InterruptFollowsCompletion :
    (∃ t, step { runSubm with ie := true } = .next t ∧ ({ runSubm with ie := true } : State).irq = false ∧ t.irq = true) ∧
      (∃ t, step (facing (.access (.write 0x008 8 2)) { State.reset with done := true }) = .next t ∧
        ({ State.reset with done := true } : State).irq = false ∧ t.irq = true) ∧
      ∃ t, step (facing (.access (.write 0x010 8 2)) { State.reset with done := true, ie := true }) = .next t ∧
        ({ State.reset with done := true, ie := true } : State).irq = true ∧ t.irq = false :=
  ⟨⟨_, rfl, rfl, rfl⟩, ⟨_, rfl, rfl, rfl⟩, _, rfl, rfl, rfl⟩

/-- A byte changed by a host write, by a completion and by a hard reset. -/
theorem witness_OperandStoreChangesOnlyBy :
    (∃ t, step (facing (.access (.write 0x14000 8 1)) (idleWith 1 [])) = .next t ∧
        t.store.readByte 0x14000 ≠ (idleWith 1 []).store.readByte 0x14000) ∧
      (∃ t, step runSubm = .next t ∧ t.store.readByte 0x13000 ≠ runSubm.store.readByte 0x13000) ∧
      ∃ t, step (facing .hardReset runSubm) = .next t ∧ t.store.readByte 0x11000 ≠ runSubm.store.readByte 0x11000 :=
  ⟨⟨_, rfl, by decide⟩, ⟨_, rfl, by decide⟩, _, rfl, by decide⟩

/-- The way to stop, and a command whose sources nothing has written, which completes. -/
theorem witness_StepStopsOnlyWhen :
    step (facing (.access (.read 4 8)) State.reset) = .fault .busError ∧ (busyWith 1 0x21301 []).phase = .exec 0x21301 1 ∧
      statusAfter (step (busyWith 1 0x21301 [])) = some 0x002 := ⟨rfl, rfl, by decide⟩

/-- A command and a hard reset that renew the free values, and a command and a host read that keep them. -/
theorem witness_FreeValuesRenewedOnlyBy :
    (∃ t, exec (.addm 3 1 2) (busyWith 1 0x21301 []) = .next t ∧ t.free = 1) ∧
      (busyWith 1 0x21301 []).readsUnwritten (.addm 3 1 2) ∧
      (∃ t, exec (.subm 3 1 2) runSubm = .next t ∧ t.free = 0) ∧
      (∃ t, step (facing .hardReset runSubm) = .next t ∧ t.free = 1) ∧
      ∃ t, step (facing (.access (.read 0x10000 8)) State.reset) = .next t ∧ t.free = 0 :=
  ⟨⟨_, rfl, rfl⟩, ⟨1, ⟨⟨_, _, rfl, rfl⟩, by decide, by decide⟩, 1, by decide, 0, by decide, by decide⟩, ⟨_, rfl, rfl⟩,
    ⟨_, rfl, rfl⟩, _, rfl, rfl⟩

theorem witness_RunEndsIdle :
    ∃ t, Host.Core.run Sys2Proof.core ((facing .engineTurn runSubm).inputs.length + 1) (facing .engineTurn runSubm) = .next t :=
  ⟨_, rfl⟩

end Sys2Proof.Tests
end

section
/-! The control registers at the host port: CAPS, CTRL and STATUS (R37 to R41, R48). -/

namespace Sys2Proof.Machine

/-! ### Accesses at the fixed offsets (R84) -/

theorem State.respond_read_caps (s : State) : s.respond (.read 0x000 8) = (s, .readOkay s.capsWord) :=
  State.respond_read (by decide) (by decide)

theorem State.respond_write_caps (s : State) (v : Word) : s.respond (.write 0x000 8 v) = (s, .writeOkay) :=
  State.respond_write (by decide) (by decide)

theorem State.respond_read_ctrl (s : State) : s.respond (.read 0x008 8) = (s, .readOkay s.ctrlWord) :=
  State.respond_read (by decide) (by decide)

theorem State.respond_write_ctrl (s : State) (v : Word) :
    s.respond (.write 0x008 8 v) = (s.writeCtrl v, .writeOkay) :=
  State.respond_write (by decide) (by decide)

theorem State.respond_read_status (s : State) : s.respond (.read 0x010 8) = (s, .readOkay s.statusWord) :=
  State.respond_read (by decide) (by decide)

theorem State.respond_write_status (s : State) (v : Word) :
    s.respond (.write 0x010 8 v) = (s.writeStatus v, .writeOkay) :=
  State.respond_write (by decide) (by decide)

/-! ### The fields of the words read -/

/-- A bit of a word, read off its value. -/
theorem getLsbD_eq_of_div_mod {d : Word} {i : Nat} {b : Bool} (h : d.toNat / 2 ^ i % 2 = b.toNat) :
    d.getLsbD i = b := by
  rw [← BitVec.testBit_toNat, Nat.testBit_eq_decide_div_mod_eq, h]
  cases b <;> rfl

/-- The bound of R8 keeps KMAX inside its field, so no field of CAPS spills into the next (R41). -/
theorem State.capsWord_toNat {s : State} (hk : s.cfg.kmax ≤ 512) :
    s.capsWord.toNat = s.cfg.kmax + 16 * 2 ^ 16 + 64 * 2 ^ 24 + 8 * 2 ^ 32 := by
  simp only [State.capsWord, BitVec.toNat_ofNat, nreg, limbW, seedW]
  omega

/-- CTRL's only bit that can read 1 is IE (R37). -/
theorem State.ctrlWord_getLsbD (s : State) (b : Nat) : s.ctrlWord.getLsbD b = (b == 1 && s.ie) := by
  unfold State.ctrlWord
  cases s.ie with
  | false => simp
  | true =>
    have h2 : BitVec.ofNat 64 (true.toNat * 2 ^ 1) = BitVec.twoPow 64 1 := rfl
    rw [h2, BitVec.getLsbD_twoPow, beq_eq_decide]
    simp [eq_comm]

theorem ErrCode.code_le (e : ErrCode) : e.code ≤ 3 := by cases e <;> decide

/-- The fields of STATUS, the reserved ones included, as the bits of the word read (R39). They do not overlap, because an error code
fits in its four bits (R260), and all lie below bit 10, so the word's value is their weighted sum. -/
theorem State.statusWord_fields (s : State) :
    s.statusWord.toNat / 2 ^ 0 % 2 = s.busy.toNat ∧ s.statusWord.toNat / 2 ^ 1 % 2 = s.done.toNat ∧
      s.statusWord.toNat / 2 ^ 2 % 2 ^ 2 = 0 ∧ s.statusWord.toNat / 2 ^ 4 % 2 ^ 4 = s.err.code ∧
      s.statusWord.toNat / 2 ^ 8 % 2 = s.ovr.toNat ∧ s.statusWord.toNat / 2 ^ 9 % 2 = s.irq.toNat ∧
      s.statusWord.toNat / 2 ^ 10 = 0 := by
  have := s.busy.toNat_le
  have := s.done.toNat_le
  have := s.err.code_le
  have := s.ovr.toNat_le
  have := s.irq.toNat_le
  simp only [State.statusWord, BitVec.toNat_ofNat]
  refine ⟨?_, ?_, ?_, ?_, ?_, ?_, ?_⟩ <;> omega

/-! ### The obligations -/

/-- Settles O10: under R8's bound the word read is the plain sum of its four fields. -/
theorem capsDescribesTheInstance : Obligations.CapsDescribesTheInstance := by
  rintro s ⟨-, hk, -⟩
  have hd := State.capsWord_toNat hk
  refine ⟨⟨s.capsWord, s.respond_read_caps, by omega, by omega, by omega, by omega, by omega, fun h64 => ?_⟩,
    s.respond_write_caps⟩
  apply BitVec.eq_of_toNat_eq
  rw [hd, h64]
  rfl

/-- Settles O11: the two branches of a CTRL write, by its SRST bit. -/
theorem ctrlWriteResetsOrEnables : Obligations.CtrlWriteResetsOrEnables := by
  intro s v
  refine ⟨⟨s.ctrlWord, s.respond_read_ctrl, fun b _ => s.ctrlWord_getLsbD b⟩, fun hsrst => ?_, fun hsrst => ?_⟩
  · rw [State.respond_write_ctrl, State.writeCtrl_reset s v hsrst]
    exact ⟨rfl, State.softReset_ie s⟩
  · rw [State.respond_write_ctrl, State.writeCtrl_enable s v hsrst]

/-- Settles O12: every bit is read off the value of the word, a sum of fields that do not overlap. -/
theorem statusReadsItsFields : Obligations.StatusReadsItsFields := by
  intro s
  obtain ⟨hbusy, hdone, hrsv, herr, hovr, hirq, hhigh⟩ := s.statusWord_fields
  have hlevel : s.statusWord.getLsbD 9 = s.irq := getLsbD_eq_of_div_mod hirq
  exact ⟨s.statusWord, s.respond_read_status, getLsbD_eq_of_div_mod hbusy, getLsbD_eq_of_div_mod hdone, hrsv, herr,
    getLsbD_eq_of_div_mod hovr, hlevel, hlevel, hhigh⟩

/-- Settles O13: `State.writeStatus` moves only DONE and OVR, each masked by the complement of its written bit. -/
theorem statusWriteOnlyClears : Obligations.StatusWriteOnlyClears := by
  intro s v
  refine ⟨s.writeStatus v, s.respond_write_status v, ?_, ?_, ?_, ?_, rfl⟩ <;> intro hbit
  · rw [State.writeStatus_done, hbit, Bool.not_true, Bool.and_false]
  · rw [State.writeStatus_done, hbit, Bool.not_false, Bool.and_true]
  · rw [State.writeStatus_ovr, hbit, Bool.not_true, Bool.and_false]
  · rw [State.writeStatus_ovr, hbit, Bool.not_false, Bool.and_true]

end Sys2Proof.Machine
end

section
/-! The host window: which accesses are admitted, the reserved offsets, and what BUSY = 1 refuses (R82 to R86, R90). -/

namespace Sys2Proof.Machine

/-! ### Accesses that are not admitted (R82, R266) -/

theorem Access.admitted_eq_false_iff (a : Access) :
    a.admitted = false ↔ ¬ (a.size = 8 ∧ a.off % 8 = 0 ∧ a.off < 0x20000) := by
  rw [← Bool.not_eq_true, Access.admitted_iff]

theorem State.respond_of_not_admitted {a : Access} (h : a.admitted = false) (s : State) : s.respond a = (s, .berr) := by
  simp only [State.respond, h, Bool.not_false, if_true]

theorem hostAccess_of_not_admitted {a : Access} (h : a.admitted = false) (s : State) :
    hostAccess a s = .fault .busError := by
  simp only [hostAccess, State.respond_of_not_admitted h]

/-! ### Reserved offsets (R85) -/

/-- Every aligned offset that leads nowhere is RAZ/WI: the state, OVR included, is unchanged, whatever the value of BUSY. -/
theorem State.respond_reserved {s : State} {off : Nat} (h1 : off % 8 = 0) (h2 : off < 0x20000)
    (htg : targetOf s.cfg off = .reserved) :
    s.respond (.read off 8) = (s, .readOkay 0) ∧ ∀ v : Word, s.respond (.write off 8 v) = (s, .writeOkay) :=
  ⟨by rw [State.respond_read h1 h2, htg]; rfl, fun v => by rw [State.respond_write h1 h2, htg]; rfl⟩

/-- The reserved offsets below the operand window, a write first. -/
theorem State.respond_reserved_low (s : State) (off : Nat) (h1 : off % 8 = 0) (hlo : 0x28 ≤ off) (hhi : off ≤ 0xFFFF) :
    (∀ v, s.respond (.write off 8 v) = (s, .writeOkay)) ∧ s.respond (.read off 8) = (s, .readOkay 0) :=
  (State.respond_reserved h1 (by omega) (targetOf_reserved _ _ (.inl ⟨hlo, hhi⟩))).symm

/-! ### WIDTH and CMD (R42, R44) -/

theorem State.respond_read_width (s : State) : s.respond (.read 0x018 8) = (s, .readOkay s.widthWord) :=
  State.respond_read (by decide) (by decide)

theorem State.respond_write_width (s : State) (v : Word) :
    s.respond (.write 0x018 8 v) = (if s.busy then s.overrun else s.writeWidth v, .writeOkay) :=
  State.respond_write (by decide) (by decide)

theorem State.respond_read_cmd (s : State) : s.respond (.read 0x020 8) = (s, .readOkay s.lastcmd) :=
  State.respond_read (by decide) (by decide)

theorem State.respond_write_cmd (s : State) (v : Word) :
    s.respond (.write 0x020 8 v) = (if s.busy then s.overrun else s.accept v, .writeOkay) :=
  State.respond_write (by decide) (by decide)

/-! ### Limbs (R86, R90) -/

theorem limbOffset_aligned (r : Reg) (j : Nat) : limbOffset r j % 8 = 0 := by
  unfold limbOffset; omega

theorem limbOffset_lt_windowSize (r : Reg) {j : Nat} (hj : j < 512) : limbOffset r j < 0x20000 := by
  have := r.isLt
  unfold limbOffset; omega

/-- A write at limb j of a register's slot: RAZ/WI beyond KMAX, refused while BUSY = 1, and otherwise it takes. -/
theorem State.respond_write_limb (s : State) (r : Reg) {j : Nat} (hj : j < 512) (v : Word) :
    s.respond (.write (limbOffset r j) 8 v) =
      (if j < s.cfg.kmax then (if s.busy then s.overrun else s.setLimb r j v) else s, .writeOkay) := by
  rw [State.respond_write (limbOffset_aligned r j) (limbOffset_lt_windowSize r hj), targetOf_limbOffset _ r hj]
  split <;> rfl

/-- A read at limb j of a register's slot while BUSY = 1: 0, and refused below KMAX. -/
theorem State.respond_read_limb_busy {s : State} (hb : s.busy = true) (r : Reg) {j : Nat} (hj : j < 512) :
    s.respond (.read (limbOffset r j) 8) = (if j < s.cfg.kmax then s.overrun else s, .readOkay 0) := by
  have hrefused : s.readTarget (.limb r j) = (s.overrun, 0) := if_pos hb
  rw [State.respond_read (limbOffset_aligned r j) (limbOffset_lt_windowSize r hj), targetOf_limbOffset _ r hj]
  split
  · rw [hrefused]
  · rfl

/-- A read at limb j of a register's slot while BUSY = 0: the limb, and 0 beyond KMAX. -/
theorem State.respond_read_limb_idle {s : State} (hb : s.busy = false) (r : Reg) {j : Nat} (hj : j < 512) :
    s.respond (.read (limbOffset r j) 8) = (s, .readOkay (if j < s.cfg.kmax then s.readLimb r j else 0)) := by
  rw [State.respond_read (limbOffset_aligned r j) (limbOffset_lt_windowSize r hj), targetOf_limbOffset _ r hj]
  split
  · rw [State.readTarget_limb_idle hb]
  · rfl

/-! ### OVR while BUSY = 0 (R90, R265) -/

theorem State.readTarget_fst_idle {s : State} (hb : s.busy = false) (tg : Target) : (s.readTarget tg).1 = s := by
  rcases s.readTarget_cases tg with h | ⟨hbusy, -, -⟩
  · exact h
  · rw [hb] at hbusy; cases hbusy

/-- The writes that can set OVR do so on BUSY = 1 only; those to CTRL and STATUS can clear it. -/
theorem State.writeTarget_ovr_idle {s : State} (hb : s.busy = false) (ho : s.ovr = false) (v : Word) (tg : Target) :
    (s.writeTarget v tg).ovr = false := by
  cases tg with
  | ctrl =>
    cases hv : v.getLsbD 0 with
    | true => simp [State.writeTarget, State.writeCtrl_reset s v hv]
    | false => simp [State.writeTarget, State.writeCtrl_enable s v hv, ho]
  | status => simp [State.writeTarget, ho]
  | width | cmd | limb r j => simp [State.writeTarget, hb, ho]
  | caps | reserved => exact ho

/-- While BUSY = 0 no access sets OVR (R90). -/
theorem State.respond_ovr_idle {s : State} (hb : s.busy = false) (ho : s.ovr = false) (a : Access) :
    (s.respond a).1.ovr = false := by
  rcases s.respond_cases a with ⟨-, h⟩ | ⟨-, off, size, -, h⟩ | ⟨-, off, size, v, -, h⟩ <;> rw [h]
  · exact ho
  · rw [State.readTarget_fst_idle hb]; exact ho
  · exact State.writeTarget_ovr_idle hb ho v _

/-! ### The obligations -/

/-- Settles O16: each clause is the answer at one offset of the map, at the given value of BUSY. -/
theorem busyAccessesAreRefused : Obligations.BusyAccessesAreRefused := by
  refine ⟨fun s hb => ?busy, fun s hb => ?idle, fun s t a r hb hr ho => ?ovr⟩
  case busy =>
    refine ⟨s.respond_read_caps, s.respond_read_ctrl, s.respond_read_status, s.respond_read_width, s.respond_read_cmd,
      s.respond_write_ctrl, s.respond_write_status, s.respond_write_caps, fun v => ?_, fun v => ?_,
      fun r j hj => ⟨fun v => ?_, State.respond_read_limb_busy hb r hj⟩, s.respond_reserved_low⟩
    · rw [State.respond_write_width, if_pos hb]; rfl
    · rw [State.respond_write_cmd, if_pos hb]; rfl
    · have h := s.respond_write_limb r hj v
      rwa [if_pos hb] at h
  case idle =>
    have hb' : ¬ s.busy = true := Bool.eq_false_iff.1 hb
    refine ⟨s.respond_read_caps, s.respond_read_ctrl, s.respond_read_status, s.respond_read_width, s.respond_read_cmd,
      s.respond_write_caps, s.respond_write_ctrl, s.respond_write_status, fun v => ?_, fun v => ?_,
      fun r j hj => ⟨fun v => ?_, fun v hk hv => ?_, fun hk => ?_⟩, s.respond_reserved_low⟩
    · rw [State.respond_write_width, if_neg hb']; rfl
    · rw [State.respond_write_cmd, if_neg hb']
    · have h := s.respond_write_limb r hj v
      rwa [if_neg hb'] at h
    · have h := State.respond_read_limb_idle hb r hj
      rwa [if_pos hk, State.readLimb_some hv] at h
    · have h := State.respond_read_limb_idle hb r hj
      rwa [if_neg (by omega)] at h
  case ovr =>
    have h := State.respond_ovr_idle hb ho a
    rwa [hr] at h

/-- Settles O8: a failed condition of R82 is all that the port's BERR, and with it the step's fault, depends on. -/
theorem badAccessGetsBusError : Obligations.BadAccessGetsBusError := by
  intro s a hbad
  have ha : a.admitted = false := a.admitted_eq_false_iff.2 hbad
  refine ⟨State.respond_of_not_admitted ha s, fun rest hin => ?_⟩
  simp only [step, hin, takeInput, hostAccess_of_not_admitted ha]

/-- Settles O9: of the three things a transaction can do, only the access that is not admitted gets BERR. -/
theorem admittedAccessGetsOkay : Obligations.AdmittedAccessGetsOkay := by
  intro s a
  rcases s.respond_cases a with ⟨ha, h⟩ | ⟨ha, off, size, rfl, h⟩ | ⟨ha, off, size, v, rfl, h⟩ <;> rw [h, ha]
  · exact ⟨iff_of_true rfl rfl, nofun⟩
  · exact ⟨iff_of_false nofun nofun, fun _ => ⟨fun _ _ _ => ⟨_, rfl⟩, nofun⟩⟩
  · exact ⟨iff_of_false nofun nofun, fun _ => ⟨nofun, fun _ _ _ _ => rfl⟩⟩

/-- Settles O17: both ranges of offsets lead nowhere, at every value of BUSY. -/
theorem reservedOffsetsReadZero : Obligations.ReservedOffsetsReadZero := by
  intro s off h8 hoff
  refine State.respond_reserved h8 (by omega) (targetOf_reserved _ _ ?_)
  exact hoff.imp_right fun ⟨hlo, _, hk⟩ => ⟨hlo, hk⟩

end Sys2Proof.Machine
end

section
/-! The decoder against the field table (R121 to R127): the fields as the decoder reads them, the command that well-formed fields
carry, and `encode` as the decoder's only inverse. -/

namespace Sys2Proof

/-! ### The fields as the decoder reads them (R121, R124) -/

/-- A run of bits split in two. -/
theorem field_add (w : Word) (lo m n : Nat) : field w lo (m + n) = field w lo m + 2 ^ m * field w (lo + m) n := by
  rw [field, field, field, Nat.pow_add, Nat.mod_mul, Nat.div_div_eq_div_mul, ← Nat.pow_add]

theorem field_add_eq_zero_iff (w : Word) (lo m n : Nat) :
    field w lo (m + n) = 0 ↔ field w lo m = 0 ∧ field w (lo + m) n = 0 := by
  simp [field_add]

/-- A field, kept as a bit vector of its length, loses nothing. -/
theorem toNat_ofNat_field (w : Word) (lo len : Nat) : (BitVec.ofNat len (field w lo len)).toNat = field w lo len := by
  rw [BitVec.toNat_ofNat, field, Nat.mod_mod]

theorem ofNat_field_eq_zero_iff (w : Word) (lo len : Nat) : BitVec.ofNat len (field w lo len) = 0#len ↔ field w lo len = 0 := by
  rw [← BitVec.toNat_inj, toNat_ofNat_field, BitVec.toNat_zero]

theorem field_op (w : Word) : field w 0 8 = (Fields.ofWord w).op.toNat := (toNat_ofNat_field w 0 8).symm

theorem field_s (w : Word) : field w 20 1 = (Fields.ofWord w).s.toNat := (toNat_ofNat_field w 20 1).symm

/-- The register that a 4-bit field names. -/
def regOfBits (b : BitVec 4) : Reg := Fin.ofNat 16 b.toNat

@[simp] theorem regOfBits_bits (r : Reg) : regOfBits r.bits = r := by
  simp [regOfBits, Reg.bits]

@[simp] theorem bits_regOfBits (b : BitVec 4) : (regOfBits b).bits = b := by
  rw [regOfBits, Reg.bits, Fin.val_ofNat, Nat.mod_eq_of_lt b.isLt, BitVec.ofNat_toNat, BitVec.setWidth_eq]

theorem regField_eq (w : Word) (lo : Nat) : regField w lo = regOfBits (BitVec.ofNat 4 (field w lo 4)) := by
  rw [regOfBits, toNat_ofNat_field]; rfl

theorem regField_rd (w : Word) : regField w 8 = regOfBits (Fields.ofWord w).rd := regField_eq w 8

theorem regField_rs1 (w : Word) : regField w 12 = regOfBits (Fields.ofWord w).rs1 := regField_eq w 12

theorem regField_rs2 (w : Word) : regField w 16 = regOfBits (Fields.ofWord w).rs2 := regField_eq w 16

/-! ### The decoder's tests for zero (R122)

The decoder tests neighbouring must-be-zero fields as one run of bits. -/

theorem field_reserved_eq_zero_iff (w : Word) :
    field w 21 43 = 0 ↔ (Fields.ofWord w).rsv = 0 ∧ (Fields.ofWord w).rsvh = 0 := by
  simp [field_add_eq_zero_iff w 21 11 32, Fields.ofWord, ofNat_field_eq_zero_iff]

theorem zerosOf_n_iff (w : Word) : (Fields.ofWord w).zerosOf .n = true ↔ field w 8 13 = 0 := by
  simp [field_add_eq_zero_iff w 8 4 9, field_add_eq_zero_iff w 12 4 5, field_add_eq_zero_iff w 16 4 1,
    Fields.zerosOf, Fields.ofWord, ofNat_field_eq_zero_iff, and_assoc]

theorem zerosOf_r3_iff (w : Word) : (Fields.ofWord w).zerosOf .r3 = true ↔ field w 20 1 = 0 := by
  simp [Fields.zerosOf, Fields.ofWord, ofNat_field_eq_zero_iff]

theorem zerosOf_r2_iff (w : Word) : (Fields.ofWord w).zerosOf .r2 = true ↔ field w 16 5 = 0 := by
  simp [field_add_eq_zero_iff w 16 4 1, Fields.zerosOf, Fields.ofWord, ofNat_field_eq_zero_iff]

theorem zerosOf_r2s_iff (w : Word) : (Fields.ofWord w).zerosOf .r2s = true ↔ field w 16 4 = 0 := by
  simp [Fields.zerosOf, Fields.ofWord, ofNat_field_eq_zero_iff]

/-! ### Well-formed fields are those of a command (R122, R123, R126) -/

theorem Fields.wellFormed_iff (f : Fields) :
    f.wellFormed = true ↔ f.rsv = 0 ∧ f.rsvh = 0 ∧ ∃ fmt, formatOf f.op = some fmt ∧ f.zerosOf fmt = true := by
  unfold Fields.wellFormed
  cases formatOf f.op <;> simp [and_assoc]

theorem ofBool_toNat_beq_one (s : BitVec 1) : BitVec.ofBool (s.toNat == 1) = s := by revert s; decide

/-- One command per opcode of the table; the registers and S are those of the fields. -/
theorem Fields.exists_instr_of_wellFormed {f : Fields} (h : f.wellFormed = true) : ∃ i : Instr, i.fields = f := by
  obtain ⟨hrsv, hrsvh, fmt, hfmt, hz⟩ := (Fields.wellFormed_iff f).1 h
  obtain ⟨op, rd, rs1, rs2, s, rsv, rsvh⟩ := f
  simp only at hrsv hrsvh hfmt
  subst hrsv hrsvh
  unfold formatOf at hfmt
  split_ifs at hfmt with hop hop hop hop hop hop hop <;> cases hfmt <;> subst hop <;>
    simp only [Fields.zerosOf, Bool.and_eq_true, beq_iff_eq] at hz
  · exact ⟨.nop, by simp [Instr.fields, Instr.opcode, hz]⟩
  · exact ⟨.addm (regOfBits rd) (regOfBits rs1) (regOfBits rs2), by simp [Instr.fields, Instr.opcode, hz]⟩
  · exact ⟨.subm (regOfBits rd) (regOfBits rs1) (regOfBits rs2), by simp [Instr.fields, Instr.opcode, hz]⟩
  · exact ⟨.mullo (regOfBits rd) (regOfBits rs1) (regOfBits rs2), by simp [Instr.fields, Instr.opcode, hz]⟩
  · exact ⟨.sub2 (regOfBits rd) (regOfBits rs1), by simp [Instr.fields, Instr.opcode, hz]⟩
  · exact ⟨.seed (regOfBits rd) (regOfBits rs1) (s.toNat == 1), by
      simp [Instr.fields, Instr.opcode, hz, ofBool_toNat_beq_one]⟩
  · exact ⟨.inv (regOfBits rd) (regOfBits rs1), by simp [Instr.fields, Instr.opcode, hz]⟩

/-! ### The decoder and the encoder (R125, R127) -/

theorem ofWord_encode (i : Instr) : Fields.ofWord (encode i) = i.fields := Fields.ofWord_toWord _

/-- The word of a command passes the decoder's tests, and its fields hold the command's operands. -/
theorem decode_encode (i : Instr) : decode (encode i) = some i := by
  have h := ofWord_encode i
  have hrsv : field (encode i) 21 43 = 0 := by
    rw [field_reserved_eq_zero_iff, h]
    cases i <;> exact ⟨rfl, rfl⟩
  have hop : field (encode i) 0 8 = i.opcode.toNat := by
    rw [field_op, h]
    cases i <;> rfl
  rw [decode, if_neg (not_not.2 hrsv), hop]
  cases i <;>
    simp [Instr.opcode, ← zerosOf_n_iff, ← zerosOf_r2_iff, ← zerosOf_r2s_iff, field_s, regField_rd, regField_rs1,
      regField_rs2, h, Instr.fields, Fields.zerosOf]

/-- Each arm of the decoder has tested what the format of its opcode asks for. -/
theorem wellFormed_of_decode {w : Word} {i : Instr} (h : decode w = some i) : (Fields.ofWord w).wellFormed = true := by
  obtain ⟨hr, h⟩ := Option.ite_none_left_eq_some.1 h
  obtain ⟨hrsv, hrsvh⟩ := (field_reserved_eq_zero_iff w).1 (not_not.1 hr)
  have hfmt : formatOf (Fields.ofWord w).op = formatOf (BitVec.ofNat 8 (field w 0 8)) := rfl
  rw [Fields.wellFormed_iff, hfmt]
  refine ⟨hrsv, hrsvh, ?_⟩
  split at h
  case h_8 => cases h
  all_goals
    rw [‹field w 0 8 = _›]
    have hz := not_not.1 (Option.ite_none_left_eq_some.1 h).1
    refine ⟨_, rfl, ?_⟩
  case h_1 => exact (zerosOf_n_iff w).2 hz
  case h_2 | h_3 | h_4 => exact (zerosOf_r3_iff w).2 hz
  case h_5 | h_7 => exact (zerosOf_r2_iff w).2 hz
  case h_6 => exact (zerosOf_r2s_iff w).2 hz

theorem exists_encode_of_wellFormed {w : Word} (h : (Fields.ofWord w).wellFormed = true) : ∃ i, encode i = w := by
  obtain ⟨i, hi⟩ := Fields.exists_instr_of_wellFormed h
  exact ⟨i, by rw [encode, hi, Fields.toWord_ofWord]⟩

theorem decode_eq_some_iff {w : Word} {i : Instr} : decode w = some i ↔ encode i = w := by
  refine ⟨fun h => ?_, fun h => h ▸ decode_encode i⟩
  obtain ⟨j, rfl⟩ := exists_encode_of_wellFormed (wellFormed_of_decode h)
  rw [decode_encode] at h
  cases h
  rfl

/-! ### The obligations -/

/-- Settles O2: a word decodes to a command exactly when it is that command's encoding. -/
theorem eachCommandHasOneWord : Obligations.EachCommandHasOneWord := by
  refine ⟨fun i => ⟨encode i, decode_encode i, fun w' h => (decode_eq_some_iff.1 h).symm⟩, fun w w' hw hne heq => hne ?_⟩
  obtain ⟨i, hi⟩ := Option.ne_none_iff_exists'.1 hw
  calc w = encode i := (decode_eq_some_iff.1 hi).symm
    _ = w' := decode_eq_some_iff.1 (heq ▸ hi)

/-- Settles O3: what decodes is well formed, and well-formed fields are those of a command's word, which decodes. -/
theorem illegalWordsAreTheMalformedOnes : Obligations.IllegalWordsAreTheMalformedOnes := by
  intro w
  rw [← Bool.not_eq_true, Option.eq_none_iff_forall_ne_some]
  constructor
  · intro hnone hwf
    obtain ⟨i, rfl⟩ := exists_encode_of_wellFormed hwf
    exact hnone i (decode_encode i)
  · exact fun hwf i h => hwf (wellFormed_of_decode h)

end Sys2Proof
end

section
/-! The command cycle: the accept of a CMD write, and the command that does nothing (R44, R160, R161, R167). -/

namespace Sys2Proof.Machine

/-- R122's word for NOP: opcode 0x00, every other field zero. -/
theorem encode_nop : encode .nop = 0 := by decide

/-- BUSY is 1 from the accept on (R160). -/
theorem State.accept_busy (s : State) (v : Word) : (s.accept v).busy = true :=
  (State.busy_eq_true_iff _).2 ⟨v, s.width, s.accept_phase v⟩

/-- Accept clears DONE, so the interrupt level falls whatever CTRL.IE is (R48, R160). -/
theorem State.accept_irq (s : State) (v : Word) : (s.accept v).irq = false := by
  rw [State.irq, State.accept_done, Bool.and_false]

/-- NOP's meaning in phase EXEC has no width check: the latched width does not occur in its outcome (R167). -/
theorem exec_nop_of_exec {s : State} {w : Word} {kl : BitVec 16} (hp : s.phase = .exec w kl) :
    exec .nop s = .next (s.complete .ok none) := by
  rw [exec, execNop, hp]

/-! ### The obligations -/

/-- Settles O15: while BUSY = 0 the write leads to `State.accept`, and while BUSY = 1 to `State.overrun`. -/
theorem cmdWriteAcceptsWhenIdle : Obligations.CmdWriteAcceptsWhenIdle := by
  intro s v
  refine ⟨fun hidle => ⟨s.accept v, ?_, s.accept_lastcmd v, s.accept_phase v, s.accept_busy v, s.accept_done v,
    s.accept_err v, s.accept_irq v, rfl, (s.accept v).respond_read_cmd⟩, fun hbusy => ?_, s.respond_read_cmd⟩
  · rw [State.respond_write_cmd, if_neg (Bool.eq_false_iff.1 hidle)]
  · rw [State.respond_write_cmd, if_pos hbusy]; rfl

/-- Settles O32: 0 is NOP's encoding, so no other word decodes to NOP, and NOP completes with no result at every latched width. -/
theorem nopCompletes : Obligations.NopCompletes := by
  refine ⟨?_, fun w hw => ?_, fun s w kl hp => ⟨s.complete .ok none, exec_nop_of_exec hp, s.writesNothing_complete .ok⟩⟩
  · rw [← encode_nop, decode_encode]
  · rw [← decode_eq_some_iff.1 hw, encode_nop]

end Sys2Proof.Machine
end

section
/-! The kernel's four functions as arithmetic in the ring of integers modulo 2^n (R13), and the identities that follow (R187, R189).

Each function is below 2^n and is, in `ZMod (2 ^ m)` for every m ≤ n, the ring operation it is named after. So two of its values
are equal when they are equal in the ring, and a law of the kernel is a law of commutative rings. -/

namespace Sys2Proof.Machine

/-! ### From equality in the ring to equality of values -/

/-- Two n-bit values that agree in the ring modulo 2^n are equal. -/
theorem eq_of_natCast_eq {n x y : Nat} (hx : x < 2 ^ n) (hy : y < 2 ^ n) (h : (x : ZMod (2 ^ n)) = y) : x = y :=
  ((ZMod.natCast_eq_natCast_iff x y (2 ^ n)).1 h).eq_of_lt_of_lt hx hy

/-- Reducing modulo 2^n changes nothing in the ring modulo a smaller power of two. -/
theorem natCast_mod_two_pow {m n : Nat} (h : m ≤ n) (x : Nat) : ((x % 2 ^ n : Nat) : ZMod (2 ^ m)) = x :=
  (ZMod.natCast_eq_natCast_iff _ _ _).2 ((Nat.mod_modEq x (2 ^ n)).of_dvd (pow_dvd_pow 2 h))

theorem intCast_emod_two_pow {m n : Nat} (h : m ≤ n) (z : Int) : ((z % 2 ^ n : Int) : ZMod (2 ^ m)) = z :=
  (ZMod.intCast_eq_intCast_iff _ _ _).2 ((Int.mod_modEq z (2 ^ n)).of_dvd (by exact_mod_cast pow_dvd_pow 2 h))

theorem natCast_two_pow_self (n : Nat) : (2 : ZMod (2 ^ n)) ^ n = 0 := by
  exact_mod_cast ZMod.natCast_self (2 ^ n)

/-! ### The kernel functions in the ring (R13) -/

theorem natCast_addMod {m n : Nat} (h : m ≤ n) (a b : Nat) : (addMod n a b : ZMod (2 ^ m)) = a + b := by
  rw [addMod, natCast_mod_two_pow h, Nat.cast_add]

theorem natCast_mulLow {m n : Nat} (h : m ≤ n) (a b : Nat) : (mulLow n a b : ZMod (2 ^ m)) = a * b := by
  rw [mulLow, natCast_mod_two_pow h, Nat.cast_mul]

theorem natCast_subMod {m n : Nat} (h : m ≤ n) (a b : Nat) : (subMod n a b : ZMod (2 ^ m)) = a - b := by
  rw [← Int.cast_natCast, subMod_cast, intCast_emod_two_pow h, Int.cast_sub, Int.cast_natCast, Int.cast_natCast]

theorem natCast_subFromTwo {m n : Nat} (h : m ≤ n) (a : Nat) : (subFromTwo n a : ZMod (2 ^ m)) = 2 - a := by
  rw [← Int.cast_natCast, subFromTwo_cast, intCast_emod_two_pow h, Int.cast_sub, Int.cast_ofNat, Int.cast_natCast]

/-! ### The ring laws (R189) -/

theorem addMod_comm (n a b : Nat) : addMod n a b = addMod n b a := by
  rw [addMod, addMod, Nat.add_comm]

theorem mulLow_comm (n a b : Nat) : mulLow n a b = mulLow n b a := by
  rw [mulLow, mulLow, Nat.mul_comm]

theorem addMod_assoc (n a b c : Nat) : addMod n (addMod n a b) c = addMod n a (addMod n b c) :=
  eq_of_natCast_eq (addMod_lt ..) (addMod_lt ..) (by simp only [natCast_addMod le_rfl]; ring)

theorem mulLow_assoc (n a b c : Nat) : mulLow n (mulLow n a b) c = mulLow n a (mulLow n b c) :=
  eq_of_natCast_eq (mulLow_lt ..) (mulLow_lt ..) (by simp only [natCast_mulLow le_rfl]; ring)

theorem mulLow_addMod (n a b c : Nat) : mulLow n a (addMod n b c) = addMod n (mulLow n a b) (mulLow n a c) :=
  eq_of_natCast_eq (mulLow_lt ..) (addMod_lt ..) (by simp only [natCast_mulLow le_rfl, natCast_addMod le_rfl]; ring)

/-- The difference is a sum with the negation. -/
theorem subMod_eq_addMod_neg (n a b : Nat) : subMod n a b = addMod n a (subMod n 0 b) :=
  eq_of_natCast_eq (subMod_lt ..) (addMod_lt ..) (by
    simp only [natCast_subMod le_rfl, natCast_addMod le_rfl, Nat.cast_zero]; ring)

theorem subFromTwo_eq_subMod (n a : Nat) : subFromTwo n a = subMod n 2 a :=
  eq_of_natCast_eq (subFromTwo_lt ..) (subMod_lt ..) (by
    rw [natCast_subFromTwo le_rfl, natCast_subMod le_rfl, Nat.cast_ofNat])

theorem mulLow_one {n a : Nat} (ha : a < 2 ^ n) : mulLow n a 1 = a := by
  rw [mulLow, Nat.mul_one, Nat.mod_eq_of_lt ha]

theorem addMod_zero {n a : Nat} (ha : a < 2 ^ n) : addMod n a 0 = a := by
  rw [addMod, Nat.add_zero, Nat.mod_eq_of_lt ha]

/-! ### The low bits of a result depend on the low bits of the operands only (R189) -/

/-- What the ring modulo 2^m says of a value is what its low m bits are. -/
theorem mod_two_pow_eq_of_natCast_eq {m x y : Nat} (hy : y < 2 ^ m) (h : (x : ZMod (2 ^ m)) = y) : x % 2 ^ m = y :=
  eq_of_natCast_eq (Nat.mod_lt _ (by positivity)) hy (by rw [natCast_mod_two_pow le_rfl, h])

theorem addMod_mod_two_pow {m n : Nat} (h : m ≤ n) (a b : Nat) :
    addMod n a b % 2 ^ m = addMod m (a % 2 ^ m) (b % 2 ^ m) :=
  mod_two_pow_eq_of_natCast_eq (addMod_lt ..) (by
    simp only [natCast_addMod h, natCast_addMod le_rfl, natCast_mod_two_pow le_rfl])

theorem subMod_mod_two_pow {m n : Nat} (h : m ≤ n) (a b : Nat) :
    subMod n a b % 2 ^ m = subMod m (a % 2 ^ m) (b % 2 ^ m) :=
  mod_two_pow_eq_of_natCast_eq (subMod_lt ..) (by
    simp only [natCast_subMod h, natCast_subMod le_rfl, natCast_mod_two_pow le_rfl])

theorem mulLow_mod_two_pow {m n : Nat} (h : m ≤ n) (a b : Nat) :
    mulLow n a b % 2 ^ m = mulLow m (a % 2 ^ m) (b % 2 ^ m) :=
  mod_two_pow_eq_of_natCast_eq (mulLow_lt ..) (by
    simp only [natCast_mulLow h, natCast_mulLow le_rfl, natCast_mod_two_pow le_rfl])

theorem subFromTwo_mod_two_pow {m n : Nat} (h : m ≤ n) (a : Nat) :
    subFromTwo n a % 2 ^ m = subFromTwo m (a % 2 ^ m) :=
  mod_two_pow_eq_of_natCast_eq (subFromTwo_lt ..) (by
    simp only [natCast_subFromTwo h, natCast_subFromTwo le_rfl, natCast_mod_two_pow le_rfl])

/-! ### The complement (R187) -/

/-- Complementing all n bits is subtracting from 2^n − 1, which is −1 in the ring, so 3 more is 2 − a. -/
theorem subFromTwo_eq_complement_add_three {n a : Nat} (ha : a < 2 ^ n) :
    subFromTwo n a = ((2 ^ n - 1 - a) + 3) % 2 ^ n := by
  refine eq_of_natCast_eq (subFromTwo_lt ..) (Nat.mod_lt _ (by positivity)) ?_
  have hsum : (2 ^ n - 1 - a) + 3 + a = 2 ^ n + 2 := by omega
  have hring := congrArg (Nat.cast (R := ZMod (2 ^ n))) hsum
  rw [natCast_subFromTwo le_rfl, natCast_mod_two_pow le_rfl]
  push_cast [natCast_two_pow_self] at hring ⊢
  linear_combination -hring

/-! ### The obligation -/

/-- Settles O43: every law is one of the ring modulo 2^n, and the low-limb laws are read in the ring modulo 2^(64j). -/
theorem kernelLaws : Obligations.KernelLaws := by
  intro k a b c ha _ _
  refine ⟨addMod_comm .., mulLow_comm .., addMod_assoc .., mulLow_assoc .., mulLow_addMod .., subMod_eq_addMod_neg ..,
    subFromTwo_eq_subMod .., mulLow_one ha, addMod_zero ha, fun j hj => ?_⟩
  have hle : 64 * j ≤ 64 * k := Nat.mul_le_mul_left 64 hj
  exact ⟨addMod_mod_two_pow hle a b, subMod_mod_two_pow hle a b, mulLow_mod_two_pow hle a b, subFromTwo_mod_two_pow hle a⟩

end Sys2Proof.Machine
end

section
/-! The limb datapath against the kernel functions (R181, R182, R185, R187).

Every chain emits, limb by limb, the low 64 bits of a number and carries the rest upwards. `limbsValue_cons_modEq` says once what that
does to the value of the limbs modulo 2^(64·k), over the integers, where a borrow is a carry of −1; the value of each chain follows by
induction on its limbs, and is exact because it is below the modulus. -/

namespace Sys2Proof.Machine

/-! ### Limb sequences -/

theorem limbsValue_lt (ws : List Word) : limbsValue ws < 2 ^ (64 * ws.length) := by
  induction ws with
  | nil => exact Nat.one_pos
  | cons w ws ih =>
    have hw := w.isLt
    rw [limbsValue, List.length_cons, Nat.mul_succ, Nat.pow_add]
    nlinarith

theorem limbsValue_replicate_zero (n : Nat) : limbsValue (List.replicate n 0) = 0 := by
  induction n with
  | zero => rfl
  | succ n ih => rw [List.replicate_succ, limbsValue, ih]; rfl

/-- Limbs hold the number that they are congruent to, reduced to their width. -/
theorem limbsValue_eq_emod {ws : List Word} {z : Int} (h : (limbsValue ws : Int) ≡ z [ZMOD 2 ^ (64 * ws.length)]) :
    (limbsValue ws : Int) = z % 2 ^ (64 * ws.length) := by
  rw [← h.eq, Int.emod_eq_of_lt (Int.natCast_nonneg _) (by exact_mod_cast limbsValue_lt ws)]

/-! ### One link of a chain -/

/-- The word that a chain emits for a number holds its low 64 bits. -/
theorem toNat_ofNat_mod (x : Nat) : ((BitVec.ofNat 64 (x % 2 ^ 64)).toNat : Int) = (x : Int) % 2 ^ 64 := by
  rw [BitVec.toNat_ofNat, Nat.mod_mod]
  norm_cast

theorem toNat_ofNat_emod (x : Int) : ((BitVec.ofNat 64 (x % 2 ^ 64).toNat).toNat : Int) = x % 2 ^ 64 := by
  have h0 : 0 ≤ x % 2 ^ 64 := Int.emod_nonneg x (by norm_num)
  have hlt : x % 2 ^ 64 < 2 ^ 64 := Int.emod_lt_of_pos x (by norm_num)
  rw [BitVec.toNat_ofNat]
  omega

/-- The low part of `x` and, above it, the rest of `x` added to `y`. -/
theorem emod_add_mul_modEq {B M x y z : Int} (h : z ≡ x / B + y [ZMOD M]) : x % B + B * z ≡ x + B * y [ZMOD B * M] := by
  have hsum : x + B * y = x % B + B * (x / B + y) := by linear_combination -Int.emod_add_mul_ediv x B
  rw [hsum]
  exact h.mul_left'.add_left _

/-- One link of a chain: the limb holds the low 64 bits of `x`, and the limbs above it hold `y` and the rest `c` of `x`. Together
they hold `x + 2^64·y`, one limb wider. -/
theorem limbsValue_cons_modEq {w : Word} {ws : List Word} {k : Nat} {c x y z : Int} (hw : (w.toNat : Int) = x % 2 ^ 64)
    (hc : c = x / 2 ^ 64) (hws : (limbsValue ws : Int) ≡ y + c [ZMOD 2 ^ (64 * k)]) (hz : z = x + 2 ^ 64 * y) :
    (limbsValue (w :: ws) : Int) ≡ z [ZMOD 2 ^ (64 * (k + 1))] := by
  rw [hc, add_comm] at hws
  rw [hz, limbsValue, Nat.cast_add, Nat.cast_mul, hw, Nat.mul_succ, pow_add, mul_comm (2 ^ (64 * k)), Nat.cast_pow, Nat.cast_ofNat]
  exact emod_add_mul_modEq hws

/-! ### The adder (R181) -/

theorem addChain_length {as bs : List Word} (h : as.length = bs.length) (c : Nat) :
    (addChain as bs c).length = as.length := by
  induction as generalizing bs c with
  | nil => rfl
  | cons a as ih =>
    cases bs with
    | nil => cases h
    | cons b bs => rw [addChain, List.length_cons, ih (Nat.succ.inj h), List.length_cons]

/-- The carry chain adds, whatever the carry into the first limb. -/
theorem addChain_modEq {as bs : List Word} (h : as.length = bs.length) (c : Nat) :
    (limbsValue (addChain as bs c) : Int) ≡ limbsValue as + limbsValue bs + c [ZMOD 2 ^ (64 * as.length)] := by
  induction as generalizing bs c with
  | nil => exact Int.modEq_one
  | cons a as ih =>
    cases bs with
    | nil => cases h
    | cons b bs =>
      refine limbsValue_cons_modEq (toNat_ofNat_mod _) (Int.natCast_ediv _ _) (ih (Nat.succ.inj h) _) ?_
      simp only [limbsValue]
      push_cast
      ring

/-! ### The subtractor (R182) -/

theorem subChain_length {as bs : List Word} (h : as.length = bs.length) (w : Nat) :
    (subChain as bs w).length = as.length := by
  induction as generalizing bs w with
  | nil => rfl
  | cons a as ih =>
    cases bs with
    | nil => cases h
    | cons b bs => rw [subChain, List.length_cons, ih (Nat.succ.inj h), List.length_cons]

/-- The borrow out of a limb is what the difference carries upwards: 0, or −1 where it is negative. -/
theorem neg_borrow_eq_ediv {d : Int} (hlo : -2 ^ 64 ≤ d) (hhi : d < 2 ^ 64) :
    -((if d < 0 then 1 else 0 : Nat) : Int) = d / 2 ^ 64 := by
  split <;> omega

/-- The borrow chain subtracts, with a borrow of at most 1 into the first limb. -/
theorem subChain_modEq {as bs : List Word} (h : as.length = bs.length) {w : Nat} (hw : w ≤ 1) :
    (limbsValue (subChain as bs w) : Int) ≡ limbsValue as - limbsValue bs - w [ZMOD 2 ^ (64 * as.length)] := by
  induction as generalizing bs w with
  | nil => exact Int.modEq_one
  | cons a as ih =>
    cases bs with
    | nil => cases h
    | cons b bs =>
      have ha := a.isLt
      have hb := b.isLt
      refine limbsValue_cons_modEq (y := limbsValue as - limbsValue bs) (toNat_ofNat_emod _)
        (neg_borrow_eq_ediv (by omega) (by omega)) ?_ ?_
      · rw [← sub_eq_add_neg]
        exact ih (Nat.succ.inj h) (by split <;> omega)
      · simp only [limbsValue]
        push_cast
        ring

/-! ### The low-word multiplier (R185) -/

theorem addWordAt_length (ls : List Word) (pos c : Nat) : (addWordAt ls pos c).length = ls.length := by
  fun_induction addWordAt ls pos c with
  | case1 => rfl
  | case2 l ls c ih => rw [List.length_cons, ih, List.length_cons]
  | case3 l ls pos c ih => rw [List.length_cons, ih, List.length_cons]

/-- A word added at a limb counts with that limb's weight; at a limb that the accumulator does not have, not at all. -/
theorem addWordAt_modEq (ls : List Word) (pos c : Nat) :
    (limbsValue (addWordAt ls pos c) : Int) ≡ limbsValue ls + 2 ^ (64 * pos) * c [ZMOD 2 ^ (64 * ls.length)] := by
  fun_induction addWordAt ls pos c with
  | case1 => exact Int.modEq_one
  | case2 l ls c ih =>
    rw [Nat.mul_zero, pow_zero, one_mul] at ih
    refine limbsValue_cons_modEq (toNat_ofNat_mod _) (Int.natCast_ediv _ _) ih ?_
    simp only [limbsValue]
    push_cast
    ring
  | case3 l ls pos c ih =>
    have hl := l.isLt
    refine limbsValue_cons_modEq (c := 0) (y := limbsValue ls + 2 ^ (64 * pos) * c) (x := l.toNat) (by omega) (by omega)
      (by rwa [add_zero]) ?_
    simp only [limbsValue, Nat.mul_succ, pow_add]
    push_cast
    ring

/-- A limb product of two words counts in full: its low word at its own limb, its high word one limb up. -/
theorem addWordAt_product_modEq (acc : List Word) (pos p : Nat) :
    (limbsValue (addWordAt (addWordAt acc pos (p % 2 ^ 64)) (pos + 1) (p / 2 ^ 64)) : Int) ≡
      limbsValue acc + 2 ^ (64 * pos) * p [ZMOD 2 ^ (64 * acc.length)] := by
  have hlow := addWordAt_modEq acc pos (p % 2 ^ 64)
  have hhigh := addWordAt_modEq (addWordAt acc pos (p % 2 ^ 64)) (pos + 1) (p / 2 ^ 64)
  have hsplit : (p : Int) = (p % 2 ^ 64 : Nat) + 2 ^ 64 * (p / 2 ^ 64 : Nat) := by
    exact_mod_cast (Nat.mod_add_div p (2 ^ 64)).symm
  rw [addWordAt_length, Nat.mul_succ, pow_add] at hhigh
  convert hhigh.trans (hlow.add_right _) using 1
  linear_combination 2 ^ (64 * pos) * hsplit

theorem mulRow_length (a : Word) (bs : List Word) (pos : Nat) (acc : List Word) : (mulRow a bs pos acc).length = acc.length := by
  induction bs generalizing pos acc with
  | nil => rfl
  | cons b bs ih => rw [mulRow, ih, addWordAt_length, addWordAt_length]

/-- A row adds the product of its multiplicand limb with the whole multiplier, at the row's limb. -/
theorem mulRow_modEq (a : Word) (bs : List Word) (pos : Nat) (acc : List Word) :
    (limbsValue (mulRow a bs pos acc) : Int) ≡ limbsValue acc + 2 ^ (64 * pos) * (a.toNat * limbsValue bs)
      [ZMOD 2 ^ (64 * acc.length)] := by
  induction bs generalizing pos acc with
  | nil => rw [mulRow, limbsValue, Nat.cast_zero, mul_zero, mul_zero, add_zero]
  | cons b bs ih =>
    have hrest := ih (pos + 1) (addWordAt (addWordAt acc pos (a.toNat * b.toNat % 2 ^ 64)) (pos + 1) (a.toNat * b.toNat / 2 ^ 64))
    rw [addWordAt_length, addWordAt_length] at hrest
    rw [mulRow]
    convert hrest.trans ((addWordAt_product_modEq acc pos (a.toNat * b.toNat)).add_right _) using 1
    simp only [limbsValue, Nat.mul_succ, pow_add]
    push_cast
    ring

theorem mulRows_length (as bs : List Word) (pos : Nat) (acc : List Word) : (mulRows as bs pos acc).length = acc.length := by
  induction as generalizing pos acc with
  | nil => rfl
  | cons a as ih => rw [mulRows, ih, mulRow_length]

/-- The rows add the product of the operands. -/
theorem mulRows_modEq (as bs : List Word) (pos : Nat) (acc : List Word) :
    (limbsValue (mulRows as bs pos acc) : Int) ≡ limbsValue acc + 2 ^ (64 * pos) * (limbsValue as * limbsValue bs)
      [ZMOD 2 ^ (64 * acc.length)] := by
  induction as generalizing pos acc with
  | nil => rw [mulRows, limbsValue, Nat.cast_zero, zero_mul, mul_zero, add_zero]
  | cons a as ih =>
    have hrest := ih (pos + 1) (mulRow a bs pos acc)
    rw [mulRow_length] at hrest
    rw [mulRows]
    convert hrest.trans ((mulRow_modEq a bs pos acc).add_right _) using 1
    simp only [limbsValue, Nat.mul_succ, pow_add]
    push_cast
    ring

theorem mulLimbs_length (as bs : List Word) : (mulLimbs as bs).length = as.length := by
  rw [mulLimbs, mulRows_length, List.length_replicate]

/-! ### The chains give the kernel's functions -/

theorem limbsValue_addChain {as bs : List Word} (h : as.length = bs.length) :
    limbsValue (addChain as bs 0) = addMod (64 * as.length) (limbsValue as) (limbsValue bs) := by
  have hval := limbsValue_eq_emod (addChain_length h 0 ▸ addChain_modEq h 0)
  rw [addChain_length h] at hval
  exact_mod_cast hval

theorem limbsValue_subChain {as bs : List Word} (h : as.length = bs.length) :
    limbsValue (subChain as bs 0) = subMod (64 * as.length) (limbsValue as) (limbsValue bs) := by
  have hval := limbsValue_eq_emod (subChain_length h 0 ▸ subChain_modEq h zero_le_one)
  rw [subChain_length h, Nat.cast_zero, sub_zero, ← subMod_cast] at hval
  exact_mod_cast hval

theorem limbsValue_mulLimbs (as bs : List Word) :
    limbsValue (mulLimbs as bs) = mulLow (64 * as.length) (limbsValue as) (limbsValue bs) := by
  have hval := limbsValue_eq_emod (mulRows_length .. ▸ mulRows_modEq as bs 0 (List.replicate as.length 0))
  rw [mulRows_length, List.length_replicate, limbsValue_replicate_zero, Nat.mul_zero, pow_zero, one_mul, Nat.cast_zero,
    zero_add] at hval
  exact_mod_cast hval

/-- The constant 2, extended to the source's length, is one limb 2 and zeros above it (R187). -/
theorem limbsValue_subFromTwoLimbs (as : List Word) :
    limbsValue (subFromTwoLimbs as) = subFromTwo (64 * as.length) (limbsValue as) := by
  cases as with
  | nil => exact (Nat.lt_one_iff.1 (subFromTwo_lt 0 0)).symm
  | cons a as =>
    have hlen : (2 :: List.replicate as.length 0 : List Word).length = (a :: as).length := by simp
    have htwo : limbsValue (2 :: List.replicate as.length 0) = 2 := by rw [limbsValue, limbsValue_replicate_zero]; rfl
    rw [subFromTwoLimbs, limbsValue_subChain hlen, hlen, htwo, subFromTwo_eq_subMod]

/-! ### The obligations -/

/-- Settles O39: `addMod` is by definition the sum's remainder. -/
theorem adderChainIsModularAddition : Obligations.AdderChainIsModularAddition :=
  fun _ _ h => ⟨addChain_length h 0, limbsValue_addChain h, limbsValue_addChain h⟩

/-- Settles O40: `subMod`, over the integers, is the difference's remainder. -/
theorem subtractorChainIsModularSubtraction : Obligations.SubtractorChainIsModularSubtraction :=
  fun _ _ h => ⟨subChain_length h 0, by rw [limbsValue_subChain h, subMod_cast], limbsValue_subChain h⟩

/-- Settles O41: `mulLow` is by definition the product's remainder. The multiplier's own length does not matter. -/
theorem limbMultiplierIsLowProduct : Obligations.LimbMultiplierIsLowProduct :=
  fun as bs _ => ⟨mulLimbs_length as bs, limbsValue_mulLimbs as bs, limbsValue_mulLimbs as bs⟩

/-- Settles O42: the complement's law, and the unit as the subtractor's chain from the constant 2. -/
theorem subFromTwoIsComplementPlusThree : Obligations.SubFromTwoIsComplementPlusThree :=
  ⟨fun _ _ ha => subFromTwo_eq_complement_add_three ha, limbsValue_subFromTwoLimbs⟩

end Sys2Proof.Machine
end

section
/-! The four kernel commands at Complete: their encodings, what they write, and the only error they end with (R183, R184, R186, R188).

Each is one operation under the width check: read the sources, then succeed with a value. What that shape gives is proved once. -/

namespace Sys2Proof.Machine

/-! ### The width check (R163) -/

theorem State.badWidth_or_runsAt {s : State} {w : Word} {kl : BitVec 16} (hp : s.phase = .exec w kl) :
    s.badWidth ∨ s.runsAt kl.toNat := by
  by_cases h : kl.toNat = 0 ∨ s.cfg.kmax < kl.toNat
  · exact .inl ⟨w, kl, hp, h⟩
  · exact .inr ⟨⟨w, kl, hp, rfl⟩, by omega, by omega⟩

theorem State.withWidth_of_runsAt {s : State} {k : Nat} (h : s.runsAt k) (op : Nat → Outcome) : s.withWidth op = op k := by
  obtain ⟨⟨w, kl, hp, hkl⟩, h1, hk⟩ := h
  exact State.withWidth_runs hp hkl h1 hk

theorem State.withWidth_of_badWidth {s : State} (h : s.badWidth) (op : Nat → Outcome) :
    s.withWidth op = .next (s.complete .invalidWidth none) := by
  obtain ⟨w, kl, hp, hbad⟩ := h
  exact State.withWidth_invalid hp hbad

/-- What a checked operation that answers a next state has done: it failed the check, or it ran at the latched width. -/
theorem State.withWidth_next_cases {s t : State} {op : Nat → Outcome} (h : s.withWidth op = .next t) :
    (s.badWidth ∧ t = s.complete .invalidWidth none) ∨ ∃ k, s.runsAt k ∧ op k = .next t := by
  cases hp : s.phase with
  | idle =>
    rw [State.withWidth, hp] at h
    cases h
  | exec w kl =>
    rcases State.badWidth_or_runsAt hp with hbad | hruns
    · rw [State.withWidth_of_badWidth hbad] at h
      cases h
      exact .inl ⟨hbad, rfl⟩
    · exact .inr ⟨_, hruns, State.withWidth_of_runsAt hruns op ▸ h⟩

/-! ### A command that always succeeds at a good width -/

section
variable {i : Instr} {s : State} {rs : List Reg} {rd : Reg} {v : Nat → Nat}
  (hi : exec i s = s.withWidth fun k => (s.afterSources rs k).succeed rd k (v k))
include hi

/-- Its result stands in the destination, and nothing else of the spec's state has changed (R162, R165). -/
theorem exec_writesResult {k : Nat} (hk : s.runsAt k) (hv : v k < 2 ^ (64 * k)) :
    ∃ t, exec i s = .next t ∧ s.writesResult t rd k (v k) :=
  ⟨_, hi.trans (State.withWidth_of_runsAt hk _), State.writesResult_afterRead s _ rd hk.2.2 hv⟩

/-- Its only error is that of the width check. -/
theorem exec_err_ok_or_badWidth {t : State} (h : exec i s = .next t) : t.err = .ok ∨ (t.err = .invalidWidth ∧ s.badWidth) := by
  rcases State.withWidth_next_cases (hi ▸ h) with ⟨hbad, rfl⟩ | ⟨k, -, hop⟩
  · exact .inr ⟨rfl, hbad⟩
  · cases hop
    exact .inl rfl

end

/-! ### The commands -/

theorem exec_addm (rd rs1 rs2 : Reg) (s : State) : exec (.addm rd rs1 rs2) s = s.withWidth fun k =>
    (s.afterSources [rs1, rs2] k).succeed rd k (addMod (64 * k) (s.source rs1 k) (s.source rs2 k)) := rfl

theorem exec_subm (rd rs1 rs2 : Reg) (s : State) : exec (.subm rd rs1 rs2) s = s.withWidth fun k =>
    (s.afterSources [rs1, rs2] k).succeed rd k (subMod (64 * k) (s.source rs1 k) (s.source rs2 k)) := rfl

theorem exec_mullo (rd rs1 rs2 : Reg) (s : State) : exec (.mullo rd rs1 rs2) s = s.withWidth fun k =>
    (s.afterSources [rs1, rs2] k).succeed rd k (mulLow (64 * k) (s.source rs1 k) (s.source rs2 k)) := rfl

theorem exec_sub2 (rd rs1 : Reg) (s : State) : exec (.sub2 rd rs1) s = s.withWidth fun k =>
    (s.afterSources [rs1] k).succeed rd k (subFromTwo (64 * k) (s.source rs1 k)) := rfl

/-! ### Their words (R122, R128) -/

@[simp] theorem toNat_bits (r : Reg) : r.bits.toNat = r.val := by
  rw [Reg.bits, BitVec.toNat_ofNat, Nat.mod_eq_of_lt r.isLt]

/-- The word with an opcode and three registers, everything else zero, as a number (formats R3 and R2). -/
theorem encode_eq_ofNat {i : Instr} {op : BitVec 8} {rd rs1 : Reg} {rs2 : BitVec 4}
    (h : i.fields = { op := op, rd := rd.bits, rs1 := rs1.bits, rs2 := rs2, s := 0, rsv := 0, rsvh := 0 }) :
    encode i = BitVec.ofNat 64 (op.toNat + rd.val * 2 ^ 8 + rs1.val * 2 ^ 12 + rs2.toNat * 2 ^ 16) := by
  rw [encode, h, Fields.toWord]
  simp

theorem encode_addm (rd rs1 rs2 : Reg) : encode (.addm rd rs1 rs2) =
    BitVec.ofNat 64 (0x01 + rd.val * 2 ^ 8 + rs1.val * 2 ^ 12 + rs2.val * 2 ^ 16) := by
  simpa using encode_eq_ofNat (i := .addm rd rs1 rs2) (op := 0x01) rfl

theorem encode_subm (rd rs1 rs2 : Reg) : encode (.subm rd rs1 rs2) =
    BitVec.ofNat 64 (0x02 + rd.val * 2 ^ 8 + rs1.val * 2 ^ 12 + rs2.val * 2 ^ 16) := by
  simpa using encode_eq_ofNat (i := .subm rd rs1 rs2) (op := 0x02) rfl

theorem encode_mullo (rd rs1 rs2 : Reg) : encode (.mullo rd rs1 rs2) =
    BitVec.ofNat 64 (0x03 + rd.val * 2 ^ 8 + rs1.val * 2 ^ 12 + rs2.val * 2 ^ 16) := by
  simpa using encode_eq_ofNat (i := .mullo rd rs1 rs2) (op := 0x03) rfl

theorem encode_sub2 (rd rs1 : Reg) : encode (.sub2 rd rs1) =
    BitVec.ofNat 64 (0x04 + rd.val * 2 ^ 8 + rs1.val * 2 ^ 12) := by
  simpa using encode_eq_ofNat (i := .sub2 rd rs1) (op := 0x04) rfl

/-! ### The obligations

With its sources written, a command reads their values (`State.source_eq`), and the kernel's function of them is what it writes. -/

/-- Settles O33: `addMod` is the sum's remainder. -/
theorem addmWritesModularSum : Obligations.AddmWritesModularSum := by
  intro rd rs1 rs2
  refine ⟨decode_eq_some_iff.2 (encode_addm rd rs1 rs2), fun s k a b hk ha hb => ?_,
    fun s t => exec_err_ok_or_badWidth (exec_addm rd rs1 rs2 s)⟩
  rw [← State.source_eq ha, ← State.source_eq hb]
  exact exec_writesResult (exec_addm rd rs1 rs2 s) hk (addMod_lt ..)

/-- Settles O34: `subMod`, over the integers, is the difference's remainder. -/
theorem submWritesModularDifference : Obligations.SubmWritesModularDifference := by
  intro rd rs1 rs2
  refine ⟨decode_eq_some_iff.2 (encode_subm rd rs1 rs2), fun s k a b hk ha hb => ?_,
    fun s t => exec_err_ok_or_badWidth (exec_subm rd rs1 rs2 s)⟩
  obtain ⟨t, hexec, hwrites⟩ := exec_writesResult (exec_subm rd rs1 rs2 s) hk (subMod_lt ..)
  rw [← State.source_eq ha, ← State.source_eq hb]
  exact ⟨t, _, hexec, hwrites, subMod_cast ..⟩

/-- Settles O35: `mulLow` is the product's remainder. -/
theorem mulloWritesLowProduct : Obligations.MulloWritesLowProduct := by
  intro rd rs1 rs2
  refine ⟨decode_eq_some_iff.2 (encode_mullo rd rs1 rs2), fun s k a b hk ha hb => ?_,
    fun s t => exec_err_ok_or_badWidth (exec_mullo rd rs1 rs2 s)⟩
  rw [← State.source_eq ha, ← State.source_eq hb]
  exact exec_writesResult (exec_mullo rd rs1 rs2 s) hk (mulLow_lt ..)

/-- Settles O36: `subFromTwo`, over the integers, is the remainder of 2 minus the source. -/
theorem sub2WritesTwoMinusSource : Obligations.Sub2WritesTwoMinusSource := by
  intro rd rs1
  refine ⟨decode_eq_some_iff.2 (encode_sub2 rd rs1), fun s k a hk ha => ?_,
    fun s t => exec_err_ok_or_badWidth (exec_sub2 rd rs1 s)⟩
  obtain ⟨t, hexec, hwrites⟩ := exec_writesResult (exec_sub2 rd rs1 s) hk (subFromTwo_lt ..)
  rw [← State.source_eq ha]
  exact ⟨t, _, hexec, hwrites, subFromTwo_cast ..⟩

end Sys2Proof.Machine
end

section
/-! The seed bootstrapper: the ROM, the single-limb Newton steps, and the command SEED (R210 to R214).

Over the integers, `v·(s·(2 − v·s)) = 1 − (1 − v·s)²`, so one Newton step squares the error and doubles the precision. The ROM starts
at 8 bits. What is written is an inverse, and a power of two leaves room for one inverse only: the laws of the ROM follow. -/

namespace Sys2Proof.Machine

/-! ### Inverses modulo a power of two -/

/-- A number has at most one n-bit inverse modulo 2^n. -/
theorem eq_of_mul_modEq_one {n a x y : Nat} (hx : x < 2 ^ n) (hy : y < 2 ^ n) (hax : a * x ≡ 1 [MOD 2 ^ n])
    (hay : a * y ≡ 1 [MOD 2 ^ n]) : x = y := by
  have hcoprime : (2 ^ n).gcd a = 1 := (Nat.coprime_of_mul_modEq_one x hax).symm
  exact ((hax.trans hay.symm).cancel_left_of_coprime hcoprime).eq_of_lt_of_lt hx hy

/-- The Newton step in n-bit arithmetic: an inverse modulo 2^p becomes one modulo 2^q, for every q up to 2·p that n bits hold. -/
theorem mul_newton_modEq_one {n p q v s : Nat} (hs : v * s ≡ 1 [MOD 2 ^ p]) (hqp : q ≤ 2 * p) (hqn : q ≤ n) :
    v * mulLow n s (subFromTwo n (mulLow n v s)) ≡ 1 [MOD 2 ^ q] := by
  have herr : (2 ^ p : Int) ∣ 1 - v * s := by exact_mod_cast (Nat.modEq_iff_dvd.1 hs)
  have hsq : ((2 ^ q : Nat) : Int) ∣ (1 - v * s) ^ 2 := calc
    ((2 ^ q : Nat) : Int) ∣ (2 ^ p) ^ 2 := by
      rw [← pow_mul, mul_comm]; exact_mod_cast pow_dvd_pow 2 hqp
    _ ∣ (1 - v * s) ^ 2 := pow_dvd_pow_of_dvd herr 2
  have hzero := (ZMod.intCast_zmod_eq_zero_iff_dvd _ (2 ^ q)).2 hsq
  rw [← ZMod.natCast_eq_natCast_iff]
  push_cast [natCast_mulLow hqn, natCast_subFromTwo hqn] at hzero ⊢
  linear_combination -hzero

/-! ### The ROM (R211, R214) -/

theorem romEntry_lt (i : Nat) : romEntry i < 2 ^ 8 := BitVec.isLt _

/-- The definition of the ROM's contents, checked entry by entry. -/
theorem mul_romEntry_modEq_one : ∀ i < 128, (2 * i + 1) * romEntry i ≡ 1 [MOD 2 ^ 8] := by decide

/-- The ROM value inverts the low byte, which is all of the limb that counts modulo 2^8. -/
theorem mul_romSeed_modEq_one {v : Nat} (hodd : v % 2 = 1) : v * romSeed v ≡ 1 [MOD 2 ^ 8] := by
  have hbyte : v ≡ 2 * (v / 2 % 128) + 1 [MOD 2 ^ 8] := by unfold Nat.ModEq; omega
  exact (hbyte.mul_right _).trans (mul_romEntry_modEq_one _ (Nat.mod_lt _ (by decide)))

/-- An even entry would be no inverse. -/
theorem romEntry_odd {i : Nat} (hi : i < 128) : romEntry i % 2 = 1 := by
  have hmod : (2 * i + 1) * romEntry i ≡ 1 [MOD 2] := (mul_romEntry_modEq_one i hi).of_dvd (by decide)
  exact Nat.odd_iff.1 (Nat.odd_mul.1 (Nat.odd_iff.2 hmod)).2

/-- Back through the table: the byte and its entry are inverse to each other. -/
theorem romEntry_romEntry {i : Nat} (hi : i < 128) : romEntry ((romEntry i - 1) / 2) = 2 * i + 1 := by
  have hodd := romEntry_odd hi
  have hlt := romEntry_lt i
  have hindex : (romEntry i - 1) / 2 = romEntry i / 2 % 128 := by omega
  rw [hindex]
  refine eq_of_mul_modEq_one (romEntry_lt _) (by omega) (mul_romSeed_modEq_one hodd) ?_
  rw [mul_comm]
  exact mul_romEntry_modEq_one i hi

/-! ### The Newton steps (R212, R214) -/

theorem mul_seedAfter_modEq_one {v : Nat} (hodd : v % 2 = 1) {i : Nat} (hi : i ≤ 3) :
    v * seedAfter v i ≡ 1 [MOD 2 ^ (8 * 2 ^ i)] := by
  induction i with
  | zero => exact mul_romSeed_modEq_one hodd
  | succ i ih =>
    have hdouble : 8 * 2 ^ (i + 1) = 2 * (8 * 2 ^ i) := by ring
    have hfits : 8 * 2 ^ (i + 1) ≤ 64 := Nat.mul_le_mul_left 8 (Nat.pow_le_pow_right two_pos hi)
    exact mul_newton_modEq_one (ih (by omega)) hdouble.le hfits

theorem mul_seedFull_modEq_one {v : Nat} (hodd : v % 2 = 1) : v * seedFull v ≡ 1 [MOD 2 ^ 64] :=
  mul_seedAfter_modEq_one hodd le_rfl

/-- The low byte of the 64-bit seed inverts modulo 2^8, as the ROM value does. -/
theorem seedFull_mod_two_pow_8 {v : Nat} (hodd : v % 2 = 1) : seedFull v % 2 ^ 8 = romSeed v := by
  have hlow : v * (seedFull v % 2 ^ 8) ≡ v * seedFull v [MOD 2 ^ 8] := (Nat.mod_modEq _ _).mul_left v
  have hfull : v * seedFull v ≡ 1 [MOD 2 ^ 8] := (mul_seedFull_modEq_one hodd).of_dvd (pow_dvd_pow 2 (by decide))
  exact eq_of_mul_modEq_one (Nat.mod_lt _ (by decide)) (romSeed_lt v) (hlow.trans hfull) (mul_romSeed_modEq_one hodd)

/-! ### The command (R213) -/

theorem exec_seed (rd rs1 : Reg) (sel : Bool) (s : State) : exec (.seed rd rs1 sel) s = s.withWidth fun k =>
    if (s.readLimb rs1 0).toNat % 2 = 0 then (s.afterSources [rs1] 1).fail .notInvertible
    else (s.afterSources [rs1] 1).succeed rd k
      (if sel then romSeed (s.readLimb rs1 0).toNat else seedFull (s.readLimb rs1 0).toNat) := rfl

theorem encode_seed (rd rs1 : Reg) (sel : Bool) : encode (.seed rd rs1 sel) =
    BitVec.ofNat 64 (0x05 + rd.val * 2 ^ 8 + rs1.val * 2 ^ 12 + sel.toNat * 2 ^ 20) := by
  rw [encode, Instr.fields, Fields.toWord]
  simp [Instr.opcode]

/-- What SEED and SEED.8 write fits in one limb, and so in a result of any width. -/
theorem ite_romSeed_seedFull_lt (sel : Bool) (v : Nat) : (if sel then romSeed v else seedFull v) < 2 ^ 64 := by
  split
  · exact (romSeed_lt v).trans (by decide)
  · exact seedFull_lt v

section
variable {s : State} {k : Nat} {rs1 : Reg} (hk : s.runsAt k) (rd : Reg) (sel : Bool)
include hk

theorem exec_seed_writesResult (hodd : (s.readLimb rs1 0).toNat % 2 = 1) :
    ∃ t, exec (.seed rd rs1 sel) s = .next t ∧
      s.writesResult t rd k (if sel then romSeed (s.readLimb rs1 0).toNat else seedFull (s.readLimb rs1 0).toNat) := by
  have hnot : ¬ (s.readLimb rs1 0).toNat % 2 = 0 := by omega
  have ⟨_, h1, hmax⟩ := hk
  rw [exec_seed, State.withWidth_of_runsAt hk, if_neg hnot]
  exact ⟨_, rfl, State.writesResult_afterRead s _ rd hmax ((ite_romSeed_seedFull_lt sel _).trans_le (two_pow_64_le h1))⟩

theorem exec_seed_writesNothing (heven : (s.readLimb rs1 0).toNat % 2 = 0) :
    ∃ t, exec (.seed rd rs1 sel) s = .next t ∧ s.writesNothing t .notInvertible := by
  rw [exec_seed, State.withWidth_of_runsAt hk, if_pos heven]
  exact ⟨_, rfl, State.writesNothing_afterRead s _ .notInvertible⟩

end

/-- The only errors are that of the width check and that of an even limb 0. -/
theorem exec_seed_err {rd rs1 : Reg} {sel : Bool} {s t : State} (h : exec (.seed rd rs1 sel) s = .next t) :
    t.err = .ok ∨ (t.err = .invalidWidth ∧ s.badWidth) ∨
      (t.err = .notInvertible ∧ (s.readLimb rs1 0).toNat % 2 = 0) := by
  rcases State.withWidth_next_cases (exec_seed rd rs1 sel s ▸ h) with ⟨hbad, rfl⟩ | ⟨k, -, hop⟩
  · exact .inr (.inl ⟨rfl, hbad⟩)
  · split at hop
    · next heven => cases hop; exact .inr (.inr ⟨rfl, heven⟩)
    · cases hop; exact .inl rfl

/-! ### The obligations -/

/-- Settles O46: the ROM's contents are checked to be inverses once, and the other laws follow from an inverse being unique. -/
theorem seedLaws : Obligations.SeedLaws :=
  ⟨fun _ hi => ⟨romEntry_odd hi, romEntry_romEntry hi⟩, rfl, rfl,
    fun _ _ hodd => ⟨seedFull_mod_two_pow_8 hodd, mul_seedFull_modEq_one hodd⟩⟩

/-- Settles O37: a written limb 0 is what SEED reads, and its parity alone decides between the inverse and NOT_INVERTIBLE. -/
theorem seedWritesLimbInverse : Obligations.SeedWritesLimbInverse := by
  intro rd rs1 sel
  refine ⟨decode_eq_some_iff.2 (encode_seed rd rs1 sel), fun s k v hk hv hodd => ?odd, fun s k v hk hv heven => ?even,
    fun s t h => ?errors⟩
  case odd =>
    rw [← State.readLimb_some hv] at hodd ⊢
    obtain ⟨t, hexec, hwrites⟩ := exec_seed_writesResult hk rd sel hodd
    refine ⟨t, _, hexec, hwrites, ?_, ?_⟩ <;> rintro rfl
    · exact ⟨rfl, romSeed_lt _, mul_romSeed_modEq_one hodd⟩
    · exact ⟨rfl, seedFull_lt _, mul_seedFull_modEq_one hodd⟩
  case even =>
    rw [← State.readLimb_some hv] at heven
    exact exec_seed_writesNothing hk rd sel heven
  case errors =>
    refine (exec_seed_err h).imp_right (Or.imp_right (And.imp_right fun heven v hv => ?_))
    rwa [State.readLimb_some hv] at heven

end Sys2Proof.Machine
end

section
/-! The lifting driver: its rounds, the value it computes, and the command INV (R230 to R240).

The seed inverts the low limb modulo 2^64, and each round is a Newton step in n-bit arithmetic, which doubles the precision p until it
is n. Only p decides when the loop stops, and p depends on the width alone. What the loop leaves is an inverse modulo 2^n, and there
is only one: the laws of inversion follow. -/

namespace Sys2Proof.Machine

/-! ### The sequencer's registers after i rounds (R232, R233, R236) -/

/-- The source latch is never rewritten (R231). -/
theorem Sequencer.after_a (n a i : Nat) : (Sequencer.after n a i).a = a := by
  induction i with
  | zero => rfl
  | succ i ih => exact ih

/-- The precision doubles in every round, up to n. -/
theorem Sequencer.after_p {k : Nat} (hk : 1 ≤ k) (a i : Nat) :
    (Sequencer.after (64 * k) a i).p = min (64 * 2 ^ i) (64 * k) := by
  induction i with
  | zero =>
    have hseed : (Sequencer.after (64 * k) a 0).p = 64 := rfl
    omega
  | succ i ih =>
    have hround : (Sequencer.after (64 * k) a (i + 1)).p = min (2 * (Sequencer.after (64 * k) a i).p) (64 * k) := rfl
    rw [hround, ih, pow_succ]
    omega

theorem Sequencer.after_y_lt {k : Nat} (hk : 1 ≤ k) (a i : Nat) : (Sequencer.after (64 * k) a i).y < 2 ^ (64 * k) := by
  cases i with
  | zero => exact (seedFull_lt _).trans_le (two_pow_64_le hk)
  | succ i => exact mulLow_lt _ _ _

/-- The seed of the low limb inverts the whole source modulo 2^64: the higher limbs do not count there. -/
theorem mul_seedFull_mod_modEq_one {a : Nat} (hodd : a % 2 = 1) : a * seedFull (a % 2 ^ 64) ≡ 1 [MOD 2 ^ 64] := by
  have hlow : a ≡ a % 2 ^ 64 [MOD 2 ^ 64] := (Nat.mod_modEq _ _).symm
  exact (hlow.mul_right _).trans (mul_seedFull_modEq_one (by omega))

/-- The invariant of the loop: at every round the candidate is an inverse to the precision p. -/
theorem Sequencer.mul_after_y_modEq_one {a : Nat} (hodd : a % 2 = 1) (n i : Nat) :
    a * (Sequencer.after n a i).y ≡ 1 [MOD 2 ^ (Sequencer.after n a i).p] := by
  induction i with
  | zero => exact mul_seedFull_mod_modEq_one hodd
  | succ i ih =>
    have hnewton := mul_newton_modEq_one ih (min_le_left _ n) (min_le_right _ n)
    simpa only [Sequencer.after, Sequencer.round, Sequencer.after_a] using hnewton

/-! ### How many rounds there are (R234) -/

/-- The loop goes on in exactly the rounds below ceil(log2 k). -/
theorem Sequencer.after_p_lt_iff {k : Nat} (hk : 1 ≤ k) (a i : Nat) :
    (Sequencer.after (64 * k) a i).p < 64 * k ↔ i < Nat.clog 2 k := by
  rw [Sequencer.after_p hk, Nat.lt_clog_iff_pow_lt one_lt_two]
  omega

/-- With fuel for the rounds that are left, the loop stops after round ceil(log2 k). -/
theorem Sequencer.lift_after {k fuel i : Nat} (hk : 1 ≤ k) (a : Nat) (hi : i ≤ Nat.clog 2 k)
    (hfuel : Nat.clog 2 k ≤ i + fuel) :
    Sequencer.lift (64 * k) fuel (Sequencer.after (64 * k) a i) = Sequencer.after (64 * k) a (Nat.clog 2 k) := by
  induction fuel generalizing i with
  | zero => rw [Sequencer.lift, le_antisymm hi hfuel]
  | succ fuel ih =>
    rw [Sequencer.lift]
    split
    case isTrue hlt => exact ih ((Sequencer.after_p_lt_iff hk a i).1 hlt) (by omega)
    case isFalse hge =>
      have hlast : ¬ i < Nat.clog 2 k := mt (Sequencer.after_p_lt_iff hk a i).2 hge
      rw [le_antisymm hi (not_lt.1 hlast)]

/-- INV's fuel of k rounds is enough. -/
theorem Sequencer.lift_start {k : Nat} (hk : 1 ≤ k) (a : Nat) :
    Sequencer.lift (64 * k) k (Sequencer.start a) = Sequencer.after (64 * k) a (Nat.clog 2 k) := by
  have hclog : Nat.clog 2 k ≤ k := Nat.clog_le_of_le_pow Nat.lt_two_pow_self.le
  exact Sequencer.lift_after (i := 0) hk a (Nat.zero_le _) (by omega)

theorem Sequencer.after_clog_p {k : Nat} (hk : 1 ≤ k) (a : Nat) :
    (Sequencer.after (64 * k) a (Nat.clog 2 k)).p = 64 * k := by
  have hpow : k ≤ 2 ^ Nat.clog 2 k := Nat.le_pow_clog one_lt_two k
  rw [Sequencer.after_p hk]
  omega

theorem clog_two_mul {k : Nat} (hk : 1 ≤ k) : Nat.clog 2 (2 * k) = Nat.clog 2 k + 1 := by
  have hhalf : (2 * k + 2 - 1) / 2 = k := by omega
  rw [Nat.clog_of_one_lt one_lt_two (by omega), hhalf]

/-! ### The value of INV (R230, R237) -/

theorem invert_eq_after_y {k : Nat} (hk : 1 ≤ k) (a : Nat) :
    invert k a = (Sequencer.after (64 * k) a (Nat.clog 2 k)).y := by
  rw [invert, Sequencer.lift_start hk]

theorem mul_invert_modEq_one {k a : Nat} (hk : 1 ≤ k) (hodd : a % 2 = 1) : a * invert k a ≡ 1 [MOD 2 ^ (64 * k)] := by
  have hy := Sequencer.mul_after_y_modEq_one hodd (64 * k) (Nat.clog 2 k)
  rwa [Sequencer.after_clog_p hk, ← invert_eq_after_y hk] at hy

/-- An n-bit inverse is the value of INV. -/
theorem eq_invert {k a y : Nat} (hk : 1 ≤ k) (hodd : a % 2 = 1) (hy : y < 2 ^ (64 * k))
    (hay : a * y ≡ 1 [MOD 2 ^ (64 * k)]) : y = invert k a :=
  eq_of_mul_modEq_one hy (invert_lt hk a) hay (mul_invert_modEq_one hk hodd)

/-- The remainder of an inverse's product, as the number 1. -/
theorem modEq_one_iff {n x : Nat} (hn : 1 ≤ n) : x ≡ 1 [MOD 2 ^ n] ↔ x % 2 ^ n = 1 := by
  rw [Nat.ModEq, Nat.one_mod_two_pow hn]

/-! ### The laws of inversion (R240) -/

/-- An even number would be no inverse. -/
theorem invert_odd {k a : Nat} (hk : 1 ≤ k) (hodd : a % 2 = 1) : invert k a % 2 = 1 := by
  have hmod : a * invert k a ≡ 1 [MOD 2] := (mul_invert_modEq_one hk hodd).of_dvd (dvd_pow_self 2 (by omega))
  exact Nat.odd_iff.1 (Nat.odd_mul.1 (Nat.odd_iff.2 hmod)).2

theorem invert_invert {k a : Nat} (hk : 1 ≤ k) (ha : a < 2 ^ (64 * k)) (hodd : a % 2 = 1) : invert k (invert k a) = a := by
  refine (eq_invert hk (invert_odd hk hodd) ha ?_).symm
  rw [mul_comm (invert k a)]
  exact mul_invert_modEq_one hk hodd

/-- 2^n − 1 is −1 in the ring modulo 2^n, so its square is 1. -/
theorem two_pow_sub_one_mul_self_modEq_one (n : Nat) : (2 ^ n - 1) * (2 ^ n - 1) ≡ 1 [MOD 2 ^ n] := by
  rw [← ZMod.natCast_eq_natCast_iff]
  push_cast [Nat.one_le_two_pow, natCast_two_pow_self]
  ring

theorem invert_one {k : Nat} (hk : 1 ≤ k) : invert k 1 = 1 := by
  have hsquare : 1 * 1 ≡ 1 [MOD 2 ^ (64 * k)] := Nat.ModEq.refl 1
  exact (eq_invert hk rfl (Nat.one_lt_two_pow (by omega)) hsquare).symm

theorem invert_two_pow_sub_one {k : Nat} (hk : 1 ≤ k) : invert k (2 ^ (64 * k) - 1) = 2 ^ (64 * k) - 1 := by
  have hpos : 1 ≤ 2 ^ (64 * k) := Nat.one_le_two_pow
  have heven : 2 ∣ 2 ^ (64 * k) := dvd_pow_self 2 (by omega)
  exact (eq_invert hk (by omega) (by omega) (two_pow_sub_one_mul_self_modEq_one _)).symm

/-- The value of INV at one limb is the seed: there is no round. -/
theorem invert_one_limb (a : Nat) : invert 1 a = seedFull (a % 2 ^ 64) := rfl

/-- An inverse modulo 2^(64k) is one modulo 2^(64j), where only the low j limbs count. -/
theorem invert_mod_two_pow {j k a : Nat} (hj : 1 ≤ j) (hjk : j ≤ k) (hodd : a % 2 = 1) :
    invert k a % 2 ^ (64 * j) = invert j (a % 2 ^ (64 * j)) := by
  have hoddLow : a % 2 ^ (64 * j) % 2 = 1 := by rwa [Nat.mod_mod_of_dvd _ (dvd_pow_self 2 (by omega))]
  refine eq_invert hj hoddLow (Nat.mod_lt _ (by positivity)) ?_
  calc a % 2 ^ (64 * j) * (invert k a % 2 ^ (64 * j))
    _ ≡ a * invert k a [MOD 2 ^ (64 * j)] := (Nat.mod_modEq _ _).mul (Nat.mod_modEq _ _)
    _ ≡ 1 [MOD 2 ^ (64 * j)] :=
      (mul_invert_modEq_one (hj.trans hjk) hodd).of_dvd (pow_dvd_pow 2 (Nat.mul_le_mul_left 64 hjk))

/-! ### The command (R230, R231) -/

theorem exec_inv (rd rs1 : Reg) (s : State) : exec (.inv rd rs1) s = s.withWidth fun k =>
    if s.source rs1 k % 2 = 0 then (s.afterSources [rs1] k).fail .notInvertible
    else (s.afterSources [rs1] k).succeed rd k (invert k (s.source rs1 k)) := rfl

theorem encode_inv (rd rs1 : Reg) : encode (.inv rd rs1) = BitVec.ofNat 64 (0x06 + rd.val * 2 ^ 8 + rs1.val * 2 ^ 12) := by
  simpa using encode_eq_ofNat (i := .inv rd rs1) (op := 0x06) rfl

section
variable {s : State} {k : Nat} {rs1 : Reg} (hk : s.runsAt k) (rd : Reg)
include hk

theorem exec_inv_writesResult (hodd : s.source rs1 k % 2 = 1) :
    ∃ t, exec (.inv rd rs1) s = .next t ∧ s.writesResult t rd k (invert k (s.source rs1 k)) := by
  have hnot : ¬ s.source rs1 k % 2 = 0 := by omega
  have ⟨_, h1, hmax⟩ := hk
  rw [exec_inv, State.withWidth_of_runsAt hk, if_neg hnot]
  exact ⟨_, rfl, State.writesResult_afterRead s _ rd hmax (invert_lt h1 _)⟩

theorem exec_inv_writesNothing (heven : s.source rs1 k % 2 = 0) :
    ∃ t, exec (.inv rd rs1) s = .next t ∧ s.writesNothing t .notInvertible := by
  rw [exec_inv, State.withWidth_of_runsAt hk, if_pos heven]
  exact ⟨_, rfl, State.writesNothing_afterRead s _ .notInvertible⟩

end

/-- The only errors are that of the width check and that of an even source, which its limb 0 shows. -/
theorem exec_inv_err {rd rs1 : Reg} {s t : State} (h : exec (.inv rd rs1) s = .next t) :
    t.err = .ok ∨ (t.err = .invalidWidth ∧ s.badWidth) ∨
      (t.err = .notInvertible ∧ (s.readLimb rs1 0).toNat % 2 = 0) := by
  rcases State.withWidth_next_cases (exec_inv rd rs1 s ▸ h) with ⟨hbad, rfl⟩ | ⟨k, ⟨_, h1, _⟩, hop⟩
  · exact .inr (.inl ⟨rfl, hbad⟩)
  · split at hop
    · next heven =>
      cases hop
      exact .inr (.inr ⟨rfl, State.source_mod_two s rs1 h1 ▸ heven⟩)
    · cases hop; exact .inl rfl

/-! ### The obligations -/

/-- Settles O47: the precision after i rounds is the least of 64·2^i and n, so it reaches n at the first i with k ≤ 2^i. -/
theorem roundCountDependsOnWidthOnly : Obligations.RoundCountDependsOnWidthOnly := by
  intro k a hk
  refine ⟨Sequencer.lift_start hk a, Sequencer.after_clog_p hk a, fun i hi => ?_, Nat.clog_one_right 2, ?_⟩
  · have hpow : 2 ^ i < k := Nat.pow_lt_of_lt_clog hi
    rw [Sequencer.after_p hk]
    omega
  · have height : 64 * k / 8 = 2 * (2 * (2 * k)) := by omega
    rw [height, clog_two_mul (by omega), clog_two_mul (by omega), clog_two_mul hk]
    omega

/-- Settles O48: the loop's invariant, with p in closed form. -/
theorem precisionHoldsAtEveryRound : Obligations.PrecisionHoldsAtEveryRound := by
  intro k a hk _ hodd i
  have hp := Sequencer.after_p hk a i
  have hpos : 1 ≤ (Sequencer.after (64 * k) a i).p := by
    have := Nat.one_le_two_pow (n := i)
    omega
  exact ⟨(modEq_one_iff hpos).1 (Sequencer.mul_after_y_modEq_one hodd _ i), hp, Sequencer.after_y_lt hk a i⟩

/-- Settles O49: the loop leaves an inverse, and an inverse is unique. -/
theorem invertIsTheUniqueInverse : Obligations.InvertIsTheUniqueInverse := by
  intro k a hk _ hodd
  have hn : 1 ≤ 64 * k := by omega
  exact ⟨invert_lt hk a, (modEq_one_iff hn).1 (mul_invert_modEq_one hk hodd),
    fun y hy hay => eq_invert hk hodd hy ((modEq_one_iff hn).2 hay)⟩

/-- Settles O50: each law names a number that is an inverse, and so the value of INV; the seed law is that of the low limbs at
one limb. -/
theorem inversionLaws : Obligations.InversionLaws := by
  intro k a hk ha hodd
  refine ⟨invert_invert hk ha hodd, invert_odd hk hodd, invert_one hk, invert_two_pow_sub_one hk, ?_,
    fun j hj hjk => invert_mod_two_pow hj hjk hodd⟩
  have hlimb := invert_mod_two_pow le_rfl hk hodd
  rwa [invert_one_limb, Nat.mod_mod] at hlimb

/-- Settles O38: a written source is what INV latches, and its parity alone decides between the inverse and NOT_INVERTIBLE. -/
theorem invWritesModularInverse : Obligations.InvWritesModularInverse := by
  intro rd rs1
  refine ⟨decode_eq_some_iff.2 (encode_inv rd rs1), fun s k a hk ha hodd => ?odd, fun s k a hk ha heven => ?even,
    fun s t h => ?errors⟩
  case odd =>
    rw [← State.source_eq ha] at hodd ⊢
    have ⟨_, h1, _⟩ := hk
    obtain ⟨t, hexec, hwrites⟩ := exec_inv_writesResult hk rd hodd
    exact ⟨t, _, hexec, hwrites, invert_lt h1 _, (modEq_one_iff (by omega)).1 (mul_invert_modEq_one h1 hodd),
      invert_eq_after_y h1 _⟩
  case even =>
    rw [← State.source_eq ha] at heven
    exact exec_inv_writesNothing hk rd heven
  case errors =>
    refine (exec_inv_err h).imp_right (Or.imp_right (And.imp_right fun heven v hv => ?_))
    rwa [State.readLimb_some hv] at heven

end Sys2Proof.Machine
end

section
/-! The checks at Complete in their order, and what a command that ends with an error leaves alone (R261 to R263, R268).

In EXEC the engine's turn is one of two things, by the decoder: ILLEGAL, or the command's meaning. In a meaning, the width check
comes first for every command but NOP, so at a bad width nothing else of the command is reached. -/

namespace Sys2Proof.Machine

/-! ### The engine's turn in EXEC (R162) -/

theorem engineTurn_of_decode_none {s : State} {w : Word} {kl : BitVec 16} (hp : s.phase = .exec w kl) (hd : decode w = none) :
    engineTurn s = .next (s.complete .illegal none) := by
  simp only [engineTurn, hp, hd, State.fail]

theorem engineTurn_of_decode_some {s : State} {w : Word} {kl : BitVec 16} {i : Instr} (hp : s.phase = .exec w kl)
    (hd : decode w = some i) : engineTurn s = exec i s := by
  simp only [engineTurn, hp, hd]

/-! ### The width check (R262) -/

/-- The meaning of every command but NOP is one operation under the width check (R163). -/
theorem exec_eq_withWidth {i : Instr} (hi : i ≠ .nop) (s : State) : ∃ op, exec i s = s.withWidth op := by
  cases i with
  | nop => exact absurd rfl hi
  | addm rd rs1 rs2 => exact ⟨_, exec_addm rd rs1 rs2 s⟩
  | subm rd rs1 rs2 => exact ⟨_, exec_subm rd rs1 rs2 s⟩
  | mullo rd rs1 rs2 => exact ⟨_, exec_mullo rd rs1 rs2 s⟩
  | sub2 rd rs1 => exact ⟨_, exec_sub2 rd rs1 s⟩
  | seed rd rs1 sel => exact ⟨_, exec_seed rd rs1 sel s⟩
  | inv rd rs1 => exact ⟨_, exec_inv rd rs1 s⟩

theorem exec_of_badWidth {i : Instr} {s : State} (hi : i ≠ .nop) (hbad : s.badWidth) :
    exec i s = .next (s.complete .invalidWidth none) := by
  obtain ⟨op, hexec⟩ := exec_eq_withWidth hi s
  rw [hexec, State.withWidth_of_badWidth hbad]

/-! ### NOT_INVERTIBLE (R268) -/

theorem exec_nop_err_ok {s t : State} (h : exec .nop s = .next t) : t.err = .ok := by
  cases hp : s.phase with
  | idle =>
    rw [exec, execNop, hp] at h
    cases h
  | exec w kl =>
    rw [exec_nop_of_exec hp] at h
    cases h
    rfl

/-- NOT_INVERTIBLE shows that the width check was passed: failing it would have left another code, and NOP leaves none. -/
theorem not_badWidth_of_notInvertible {i : Instr} {s t : State} (h : exec i s = .next t) (he : t.err = .notInvertible) :
    ¬ s.badWidth := by
  intro hbad
  by_cases hi : i = .nop
  · subst hi
    rw [exec_nop_err_ok h] at he
    cases he
  · rw [exec_of_badWidth hi hbad] at h
    cases h
    cases he

/-- The kernel commands and NOP never end with NOT_INVERTIBLE. -/
theorem seed_or_inv_of_notInvertible {i : Instr} {s t : State} (h : exec i s = .next t) (he : t.err = .notInvertible) :
    (∃ rd rs1 sel, i = .seed rd rs1 sel) ∨ ∃ rd rs1, i = .inv rd rs1 := by
  have not_kernel : ¬ (t.err = .ok ∨ (t.err = .invalidWidth ∧ s.badWidth)) := by simp [he]
  cases i with
  | nop => exact (not_kernel (.inl (exec_nop_err_ok h))).elim
  | addm rd rs1 rs2 => exact (not_kernel (exec_err_ok_or_badWidth (exec_addm rd rs1 rs2 s) h)).elim
  | subm rd rs1 rs2 => exact (not_kernel (exec_err_ok_or_badWidth (exec_subm rd rs1 rs2 s) h)).elim
  | mullo rd rs1 rs2 => exact (not_kernel (exec_err_ok_or_badWidth (exec_mullo rd rs1 rs2 s) h)).elim
  | sub2 rd rs1 => exact (not_kernel (exec_err_ok_or_badWidth (exec_sub2 rd rs1 s) h)).elim
  | seed rd rs1 sel => exact .inl ⟨rd, rs1, sel, rfl⟩
  | inv rd rs1 => exact .inr ⟨rd, rs1, rfl⟩

/-! ### What an error leaves alone (R263) -/

/-- Of the three ways to complete, only that with an error leaves ERR other than 0, and it has no result to write. -/
theorem CompletesAs.writesNothing_of_err_ne_ok {s t : State} {dest : Option Reg} (h : CompletesAs s dest t) (he : t.err ≠ .ok) :
    s.writesNothing t t.err := by
  cases h with
  | error b e _ ht => subst ht; exact s.writesNothing_afterRead b e
  | nothing _ ht => subst ht; exact absurd rfl he
  | result b rd k v _ _ _ _ ht => subst ht; exact absurd rfl he

/-! ### The obligations -/

/-- Settles O25: an ILLEGAL word completes with no result, and the invariant has LASTCMD hold the latched word. -/
theorem illegalWordCompletesWithCode : Obligations.IllegalWordCompletesWithCode := by
  intro s w kl hp hd
  refine ⟨_, engineTurn_of_decode_none hp hd, s.writesNothing_complete .illegal, fun hinv => ?_⟩
  have hlatch := hinv.latchesHold
  simp only [State.latchesHold, hp] at hlatch
  obtain ⟨-, -, hlast, -⟩ := hlatch
  rw [State.respond_read_cmd, State.complete_lastcmd, hlast]

/-- Settles O26: at a bad width a command's operation, which alone reads operands, does not occur in its outcome. -/
theorem widthIsCheckedBeforeOperands : Obligations.WidthIsCheckedBeforeOperands :=
  fun _ s hi hbad => ⟨_, exec_of_badWidth hi hbad, s.writesNothing_complete .invalidWidth⟩

/-- Settles O27: while BUSY = 1 the engine's turn is an ILLEGAL completion or a command's, and neither writes on an error. -/
theorem errorWritesNoRegister : Obligations.ErrorWritesNoRegister := by
  intro s t hbusy h he
  rcases engineTurn_next h with ⟨hidle, -⟩ | ⟨w, kl, -, ⟨-, rfl⟩ | ⟨i, -, hc⟩⟩
  · rw [(State.busy_eq_false_iff s).2 hidle] at hbusy
    cases hbusy
  · exact s.writesNothing_complete .illegal
  · exact hc.writesNothing_of_err_ne_ok he

/-- Settles O28: one clause per check, in the order in which the engine's turn makes them. -/
theorem checksRunInOrder : Obligations.ChecksRunInOrder := by
  intro s w kl hp
  have hgood : ¬ s.badWidth → s.runsAt kl.toNat := (State.badWidth_or_runsAt hp).resolve_left
  refine ⟨fun hd => ?illegal, fun i hd hi hbad => ?width, fun hd => ?nop, fun i t hd h he => ?cause,
    fun rd rs1 sel v hd hok hv heven => ?seed, fun rd rs1 a hd hok ha heven => ?inv⟩
  case illegal => exact ⟨_, engineTurn_of_decode_none hp hd, rfl⟩
  case width => exact ⟨_, (engineTurn_of_decode_some hp hd).trans (exec_of_badWidth hi hbad), rfl⟩
  case nop => exact ⟨_, (engineTurn_of_decode_some hp hd).trans (exec_nop_of_exec hp), rfl⟩
  case cause =>
    rw [engineTurn_of_decode_some hp hd] at h
    exact ⟨not_badWidth_of_notInvertible h he, seed_or_inv_of_notInvertible h he⟩
  case seed =>
    rw [← State.readLimb_some hv] at heven
    obtain ⟨t, hexec, ⟨herr, -⟩, -⟩ := exec_seed_writesNothing (hgood hok) rd sel heven
    exact ⟨t, (engineTurn_of_decode_some hp hd).trans hexec, herr⟩
  case inv =>
    rw [← State.source_eq ha] at heven
    obtain ⟨t, hexec, ⟨herr, -⟩, -⟩ := exec_inv_writesNothing (hgood hok) rd heven
    exact ⟨t, (engineTurn_of_decode_some hp hd).trans hexec, herr⟩

end Sys2Proof.Machine
end

section
/-! The overrun flag over every step (R90, R265): what each access does to OVR, said once, and from it when OVR rises and falls. -/

namespace Sys2Proof.Machine

/-! ### Which accesses BUSY = 1 refuses (R90) -/

theorem refusedWhenBusy_read_iff (c : Config) (off size : Nat) :
    refusedWhenBusy c (.read off size) ↔ (Access.read off size).admitted = true ∧ ∃ r j, targetOf c off = .limb r j := by
  simp only [refusedWhenBusy, Access.off]
  cases targetOf c off <;> simp

theorem refusedWhenBusy_write_iff (c : Config) (off size : Nat) (v : Word) :
    refusedWhenBusy c (.write off size v) ↔ (Access.write off size v).admitted = true ∧
      (targetOf c off = .width ∨ targetOf c off = .cmd ∨ ∃ r j, targetOf c off = .limb r j) := by
  simp only [refusedWhenBusy, Access.off]
  cases targetOf c off <;> simp

/-- A refused access sets OVR and does nothing else (R90, R265). -/
theorem State.respond_of_refused {s : State} {a : Access} (hbusy : s.busy = true) (h : refusedWhenBusy s.cfg a) :
    (s.respond a).1 = s.overrun := by
  cases a with
  | read off size =>
    obtain ⟨ha, r, j, htg⟩ := (refusedWhenBusy_read_iff ..).1 h
    simp [State.respond, ha, htg, State.readTarget, hbusy]
  | write off size v =>
    obtain ⟨ha, htg | htg | ⟨r, j, htg⟩⟩ := (refusedWhenBusy_write_iff ..).1 h <;>
      simp [State.respond, ha, htg, State.writeTarget, hbusy]

/-! ### What an access does to OVR -/

theorem targetOf_eq_ctrl {c : Config} {off : Nat} (h : targetOf c off = .ctrl) : off = 0x008 := by
  unfold targetOf at h
  split_ifs at h
  assumption

theorem targetOf_eq_status {c : Config} {off : Nat} (h : targetOf c off = .status) : off = 0x010 := by
  unfold targetOf at h
  split_ifs at h
  assumption

/-- What an access does to OVR: nothing, unless BUSY = 1 refuses it, or it is a STATUS write, or a CTRL write with SRST
(R38, R40, R90). -/
theorem State.respond_ovr_cases (s : State) (a : Access) :
    (s.respond a).1.ovr = s.ovr ∨
    (s.busy = true ∧ refusedWhenBusy s.cfg a) ∨
    (∃ v : Word, a = .write 0x010 8 v ∧ (s.respond a).1.ovr = (s.ovr && !v.getLsbD 8)) ∨
    (∃ v : Word, a = .write 0x008 8 v ∧ v.getLsbD 0 = true ∧ (s.respond a).1.ovr = false) := by
  rcases s.respond_cases a with ⟨-, h⟩ | ⟨ha, off, size, rfl, h⟩ | ⟨ha, off, size, v, rfl, h⟩ <;> rw [h]
  · exact .inl rfl
  · rcases s.readTarget_cases (targetOf s.cfg off) with hsame | ⟨hbusy, hlimb, -⟩
    · exact .inl (by rw [hsame])
    · exact .inr (.inl ⟨hbusy, (refusedWhenBusy_read_iff ..).2 ⟨ha, hlimb⟩⟩)
  · have hsize : size = 8 := ((Access.admitted_iff _).1 ha).1
    subst hsize
    have hrefuses := refusedWhenBusy_write_iff s.cfg off 8 v
    cases htg : targetOf s.cfg off with
    | caps | reserved => exact .inl rfl
    | ctrl =>
      cases targetOf_eq_ctrl htg
      cases hv : v.getLsbD 0 with
      | true => exact .inr (.inr (.inr ⟨v, rfl, hv, by simp [State.writeTarget, State.writeCtrl_reset s v hv]⟩))
      | false => exact .inl (by simp [State.writeTarget, State.writeCtrl_enable s v hv])
    | status =>
      cases targetOf_eq_status htg
      exact .inr (.inr (.inl ⟨v, rfl, s.writeStatus_ovr v⟩))
    | width | cmd | limb r j =>
      cases hbusy : s.busy with
      | true => exact .inr (.inl ⟨rfl, hrefuses.2 ⟨ha, by simp [htg]⟩⟩)
      | false => exact .inl (by simp [State.writeTarget, hbusy])

/-- A step that takes an access does what the transaction does, and shows its answer (R93). -/
theorem step_access_next {s t : State} {a : Access} {rest : List Input} (hin : s.inputs = .access a :: rest)
    (h : step s = .next t) : t = { (s.respond a).1 with inputs := rest, resp := some (s.respond a).2 } := by
  simp only [step, hin, takeInput] at h
  obtain ⟨-, ht⟩ := hostAccess_next h
  rwa [State.respond_otherMoves] at ht

/-- What a step does to OVR: an access does what the transaction does, a hard reset clears it, and the engine's turn keeps it. -/
theorem step_ovr_cases {s t : State} (h : step s = .next t) :
    t.ovr = s.ovr ∨ (∃ a, s.nextAccess = some a ∧ t.ovr = (s.respond a).1.ovr) ∨
      ((∃ rest, s.inputs = .hardReset :: rest) ∧ t.ovr = false) := by
  rcases step_cases h with ⟨-, hturn⟩ | ⟨a, rest, hin, -⟩ | ⟨rest, hin, rfl⟩
  · obtain ⟨-, -, hovr, -⟩ := engineTurn_keeps hturn
    exact .inl hovr
  · exact .inr (.inl ⟨a, State.nextAccess_of hin, by rw [step_access_next hin h]⟩)
  · exact .inr (.inr ⟨⟨rest, hin⟩, rfl⟩)

/-! ### The obligation -/

/-- Settles O54: only a refused access can raise OVR, and it is set by it; the writes that can lower it are those to STATUS and
CTRL. -/
theorem overrunIsSetByRefusalOnly : Obligations.OverrunIsSetByRefusalOnly := by
  intro s t h
  refine ⟨fun a hnext hbusy href => ?refused, fun hclear hset => ?rises, fun hset hclear => ?falls⟩
  case refused =>
    obtain ⟨rest, hin⟩ := State.nextAccess_eq_some hnext
    rw [step_access_next hin h, State.respond_of_refused hbusy href, hin]
    rfl
  case rises =>
    rcases step_ovr_cases h with hkept | ⟨a, hnext, hacc⟩ | ⟨-, hreset⟩
    · simp [hkept, hclear] at hset
    · rw [hacc] at hset
      rcases s.respond_ovr_cases a with hkept | ⟨hbusy, href⟩ | ⟨v, -, hstatus⟩ | ⟨v, -, -, hctrl⟩
      · simp [hkept, hclear] at hset
      · exact ⟨hbusy, a, hnext, href⟩
      · simp [hstatus, hclear] at hset
      · simp [hctrl] at hset
    · simp [hreset] at hset
  case falls =>
    rcases step_ovr_cases h with hkept | ⟨a, hnext, hacc⟩ | ⟨hreset, -⟩
    · simp [hkept, hset] at hclear
    · rw [hacc] at hclear
      rcases s.respond_ovr_cases a with hkept | ⟨hbusy, href⟩ | ⟨v, rfl, hstatus⟩ | ⟨v, rfl, hsrst, -⟩
      · simp [hkept, hset] at hclear
      · simp [State.respond_of_refused hbusy href] at hclear
      · rw [hstatus, hset, Bool.true_and, Bool.not_eq_false'] at hclear
        exact .inl ⟨v, hnext, hclear⟩
      · exact .inr (.inl ⟨v, hnext, hsrst⟩)
    · exact .inr (.inr hreset)

end Sys2Proof.Machine
end

section
/-! The two resets (R300, R302): the registers at their reset values, and what happens to the operand store. -/

namespace Sys2Proof.Machine

/-! ### The hard reset (R51, R300) -/

/-- A hard reset is a step whatever the phase. -/
theorem step_hardReset {s : State} {rest : List Input} (hin : s.inputs = .hardReset :: rest) :
    step s = .next (State.hardResetOf s.cfg (s.free + 1) rest) := by
  rw [step, hin]
  rfl

/-- A limb holds no value in a store that lists nothing (R34). -/
theorem State.limb_of_store_nil {s : State} (h : s.store = []) (r : Reg) (j : Nat) : s.limb r j = none := by
  rw [State.limb, h]
  rfl

theorem State.hardResetOf_limb (c : Config) (n : Nat) (rest : List Input) (r : Reg) (j : Nat) :
    (State.hardResetOf c n rest).limb r j = none :=
  State.limb_of_store_nil rfl r j

/-- CAPS reads as a constant of the instance (R41). -/
theorem State.capsWord_congr {s t : State} (h : s.cfg = t.cfg) : s.capsWord = t.capsWord := by
  rw [State.capsWord, State.capsWord, h]

/-- STATUS reads 0 when each of its fields is clear; IRQ is, because DONE is (R39, R48). -/
theorem State.statusWord_eq_zero {s : State} (hbusy : s.busy = false) (hdone : s.done = false) (herr : s.err = .ok)
    (hovr : s.ovr = false) : s.statusWord = 0 := by
  have hirq : s.irq = false := by rw [State.irq, hdone, Bool.and_false]
  simp [State.statusWord, ErrCode.code, hbusy, hdone, herr, hovr, hirq]

theorem State.hardResetOf_ctrlWord (c : Config) (n : Nat) (rest : List Input) : (State.hardResetOf c n rest).ctrlWord = 0 := rfl

theorem State.hardResetOf_statusWord (c : Config) (n : Nat) (rest : List Input) :
    (State.hardResetOf c n rest).statusWord = 0 :=
  State.statusWord_eq_zero rfl rfl rfl rfl

/-! ### The soft reset (R302) -/

theorem State.softReset_busy (s : State) : s.softReset.busy = false := rfl

theorem State.softReset_limb (s : State) (r : Reg) (j : Nat) : s.softReset.limb r j = s.limb r j :=
  State.limb_congr fun _ _ => by rw [State.softReset_store]

/-- A CTRL write with SRST = 1 is the soft reset at any time: BUSY = 1 does not refuse it (R38, R90). -/
theorem State.respond_write_ctrl_reset (s : State) {v : Word} (hsrst : v.getLsbD 0 = true) :
    s.respond (.write 0x008 8 v) = (s.softReset, .writeOkay) := by
  rw [State.respond_write_ctrl, State.writeCtrl_reset s v hsrst]

/-! ### The obligations -/

/-- Settles O6: the step leaves `State.hardResetOf`, whose register words are 0 and whose store lists nothing. -/
theorem hardResetSetsEveryField : Obligations.HardResetSetsEveryField := by
  intro s rest hin
  exact ⟨_, step_hardReset hin, rfl, State.hardResetOf_ctrlWord _ _ _, State.hardResetOf_statusWord _ _ _, rfl, rfl,
    State.capsWord_congr rfl, rfl, rfl, State.hardResetOf_limb _ _ _⟩

/-- Settles O7: the write is the soft reset, which sets each register field and does not touch the store. -/
theorem softResetKeepsTheOperandStore : Obligations.SoftResetKeepsTheOperandStore := by
  intro s v hsrst
  refine ⟨s.softReset, s.respond_write_ctrl_reset hsrst, s.softReset_phase, s.softReset_busy, s.softReset_done, s.softReset_err,
    s.softReset_ovr, s.softReset_ie, s.softReset_width, s.softReset_lastcmd, s.softReset_limb, fun x => ?bytes⟩
  case bytes => rw [State.softReset_store]

end Sys2Proof.Machine
end

section
/-! The encoder against the assembler table and the spec's decode vectors (R121, R122, R128). -/

namespace Sys2Proof

/-- Settles O1: the word of a command passes the decoder's tests, and its fields hold the command's operands. -/
theorem decodeEncodeRoundTrip : Obligations.DecodeEncodeRoundTrip := decode_encode

/-- Settles O4: each spelling's word is a sum of fields that stays far below 2^64, so it is its own value. -/
theorem encodeGivesTheAssemblerWords : Obligations.EncodeGivesTheAssemblerWords := by
  refine ⟨Machine.encode_nop, fun d a b => ?_⟩
  have hd := d.isLt
  have ha := a.isLt
  have hb := b.isLt
  simp only [Machine.encode_addm, Machine.encode_subm, Machine.encode_mullo, Machine.encode_sub2, Machine.encode_seed,
    Machine.encode_inv, BitVec.toNat_ofNat, Bool.toNat_false, Bool.toNat_true]
  refine ⟨?_, ?_, ?_, ?_, ?_, ?_, ?_⟩ <;> omega

/-- Settles O5: each legal word is the encoding of the command listed, and each ILLEGAL one fails a test of the decoder. -/
theorem specWordsDecode : Obligations.SpecWordsDecode :=
  ⟨decode_eq_some_iff.2 rfl, decode_eq_some_iff.2 rfl, decode_eq_some_iff.2 rfl, decode_eq_some_iff.2 rfl,
    decode_eq_some_iff.2 rfl, decode_eq_some_iff.2 rfl, decode_eq_some_iff.2 rfl, by decide, by decide, by decide⟩

end Sys2Proof
end

section
/-! One step, said once: what a host access can leave behind, and with it what each kind of move does (R84, R90, R93).

Every invariant of a step is then a case analysis over `AccessLeaves`, the engine's turn and the hard reset. -/

namespace Sys2Proof.Machine

/-! ### What a host access can leave (R38, R40, R42, R44, R86, R90) -/

theorem targetOf_eq_width {c : Config} {off : Nat} (h : targetOf c off = .width) : off = 0x018 := by
  unfold targetOf at h
  split_ifs at h
  assumption

theorem targetOf_eq_cmd {c : Config} {off : Nat} (h : targetOf c off = .cmd) : off = 0x020 := by
  unfold targetOf at h
  split_ifs at h
  assumption

/-- The states that a transaction can leave, each with the access and the value of BUSY that lead to it. -/
inductive AccessLeaves (s : State) (a : Access) : State → Prop
  | same : AccessLeaves s a s
  | refused (hbusy : s.busy = true) (ha : refusedWhenBusy s.cfg a) : AccessLeaves s a s.overrun
  | ctrl (v : Word) (ha : a = .write 0x008 8 v) : AccessLeaves s a (s.writeCtrl v)
  | status (v : Word) (ha : a = .write 0x010 8 v) : AccessLeaves s a (s.writeStatus v)
  | width (v : Word) (hidle : s.busy = false) (ha : a = .write 0x018 8 v) : AccessLeaves s a (s.writeWidth v)
  | accept (v : Word) (hidle : s.busy = false) (ha : a = .write 0x020 8 v) : AccessLeaves s a (s.accept v)
  | limb (r : Reg) (j : Nat) (v : Word) (hidle : s.busy = false) (ha : a = .write (limbOffset r j) 8 v)
      (hj : j < s.cfg.kmax) (hj' : j < 512) : AccessLeaves s a (s.setLimb r j v)

/-- The inversion of an admitted write, by where its offset leads. -/
theorem State.writeTarget_leaves (s : State) {off : Nat} (v : Word) (hadm : (Access.write off 8 v).admitted = true) :
    AccessLeaves s (.write off 8 v) (s.writeTarget v (targetOf s.cfg off)) := by
  obtain ⟨-, h8, hwin⟩ := (Access.admitted_iff _).1 hadm
  have hrefuses := refusedWhenBusy_write_iff s.cfg off 8 v
  cases htg : targetOf s.cfg off with
  | caps | reserved => exact .same
  | ctrl =>
    cases targetOf_eq_ctrl htg
    exact .ctrl v rfl
  | status =>
    cases targetOf_eq_status htg
    exact .status v rfl
  | width =>
    cases targetOf_eq_width htg
    cases hbusy : s.busy with
    | true => simpa [State.writeTarget, hbusy] using .refused hbusy (hrefuses.2 ⟨hadm, by simp [htg]⟩)
    | false => simpa [State.writeTarget, hbusy] using .width v hbusy rfl
  | cmd =>
    cases targetOf_eq_cmd htg
    cases hbusy : s.busy with
    | true => simpa [State.writeTarget, hbusy] using .refused hbusy (hrefuses.2 ⟨hadm, by simp [htg]⟩)
    | false => simpa [State.writeTarget, hbusy] using .accept v hbusy rfl
  | limb r j =>
    obtain ⟨-, hj, hj', hoff⟩ := targetOf_eq_limb htg
    cases hbusy : s.busy with
    | true => simpa [State.writeTarget, hbusy] using .refused hbusy (hrefuses.2 ⟨hadm, by simp [htg]⟩)
    | false => simpa [State.writeTarget, hbusy] using .limb r j v hbusy (by rw [hoff h8 hwin]) hj hj'

/-- The inversion of a transaction. -/
theorem State.respond_leaves (s : State) (a : Access) : AccessLeaves s a (s.respond a).1 := by
  rcases s.respond_cases a with ⟨-, h⟩ | ⟨hadm, off, size, rfl, h⟩ | ⟨hadm, off, size, v, rfl, h⟩ <;> rw [h]
  · exact .same
  · rcases s.readTarget_cases (targetOf s.cfg off) with hsame | ⟨hbusy, hlimb, hover⟩
    · rw [hsame]; exact .same
    · rw [hover]; exact .refused hbusy ((refusedWhenBusy_read_iff ..).2 ⟨hadm, hlimb⟩)
  · obtain rfl : size = 8 := ((Access.admitted_iff _).1 hadm).1
    exact s.writeTarget_leaves v hadm

namespace AccessLeaves

variable {s u : State} {a : Access}

theorem cfg_eq (h : AccessLeaves s a u) : u.cfg = s.cfg := by
  cases h <;> simp

theorem inputs_eq (h : AccessLeaves s a u) : u.inputs = s.inputs := by
  cases h <;> simp

/-- No host access renews the free values (R91, log entry 1). -/
theorem free_eq (h : AccessLeaves s a u) : u.free = s.free := by
  cases h with
  | ctrl v => unfold State.writeCtrl; split <;> rfl
  | same | refused | status | width | accept | limb => rfl

end AccessLeaves

/-! ### The three kinds of step (R93) -/

/-- The inversion of step: the engine's turn, a transaction with its answer on the port, or a hard reset. -/
theorem step_leaves {s t : State} (h : step s = .next t) :
    (s.engineNext ∧ engineTurn { s with inputs := s.inputs.tail, resp := none } = .next t) ∨
    (∃ a u r, s.nextAccess = some a ∧ AccessLeaves s a u ∧ t = { u with inputs := s.inputs.tail, resp := r }) ∨
    (∃ rest, s.inputs = .hardReset :: rest ∧ t = State.hardResetOf s.cfg (s.free + 1) rest) := by
  refine (step_cases h).imp_right (Or.imp_left ?_)
  rintro ⟨a, rest, hin, -⟩
  exact ⟨a, _, _, State.nextAccess_of hin, s.respond_leaves a, by rw [step_access_next hin h, hin]; rfl⟩

/-- With no move left the engine has its turn (R162). -/
theorem step_of_nil {s : State} (hin : s.inputs = []) : step s = engineTurn { s with resp := none } := by
  rw [step, hin]

theorem step_of_engineTurn {s : State} {rest : List Input} (hin : s.inputs = .engineTurn :: rest) :
    step s = engineTurn { s with inputs := rest, resp := none } := by
  rw [step, hin]
  rfl

theorem step_of_access {s : State} {a : Access} {rest : List Input} (hin : s.inputs = .access a :: rest) :
    step s = hostAccess a { s with inputs := rest, resp := none } := by
  rw [step, hin]
  rfl

theorem engineTurn_of_idle {s : State} (hp : s.phase = .idle) : engineTurn s = .next s := by
  simp only [engineTurn, hp]

/-- Every step takes off one move and keeps the parameters (R49, R93). -/
theorem step_inputs_cfg {s t : State} (h : step s = .next t) : t.inputs = s.inputs.tail ∧ t.cfg = s.cfg := by
  rcases step_leaves h with ⟨-, hturn⟩ | ⟨a, u, r, -, hu, rfl⟩ | ⟨rest, hin, rfl⟩
  · obtain ⟨hinputs, hcfg, -⟩ := engineTurn_keeps hturn
    exact ⟨hinputs, hcfg⟩
  · exact ⟨rfl, hu.cfg_eq⟩
  · rw [hin]; exact ⟨rfl, rfl⟩

/-- An admitted access never meets BERR, so it is a step (R83). -/
theorem step_admitted {s : State} {a : Access} {rest : List Input} (hin : s.inputs = .access a :: rest)
    (hadm : a.admitted = true) :
    step s = .next { (s.respond a).1 with inputs := rest, resp := some (s.respond a).2 } := by
  rw [step_of_access hin, hostAccess, State.respond_otherMoves]
  rcases s.respond_cases a with ⟨hnot, -⟩ | ⟨-, off, size, -, h⟩ | ⟨-, off, size, v, -, h⟩
  · rw [hadm] at hnot; cases hnot
  · rw [h]
  · rw [h]

/-! ### The obligations -/

/-- Settles O59: an admitted access never meets BERR, and the transaction does not look at the moves to come. -/
theorem admittedAccessIsAStep : Obligations.AdmittedAccessIsAStep :=
  fun _ _ _ => step_admitted

/-- Settles O23: with a decoded word in EXEC, the engine's turn is the command's meaning. -/
theorem stepRunsTheDecodedCommand : Obligations.StepRunsTheDecodedCommand :=
  fun _ _ _ _ hp hd => ⟨fun hin => (step_of_nil hin).trans (engineTurn_of_decode_some hp hd),
    fun _ hin => (step_of_engineTurn hin).trans (engineTurn_of_decode_some hp hd)⟩

/-- Settles O24: one clause per kind of move. -/
theorem stepTakesOneMove : Obligations.StepTakesOneMove :=
  fun _ => ⟨fun _ _ => step_of_access, fun hp hin => (step_of_nil hin).trans (engineTurn_of_idle hp),
    fun _ hp hin => (step_of_engineTurn hin).trans (engineTurn_of_idle hp), fun _ => step_inputs_cfg⟩

end Sys2Proof.Machine
end

section
/-! The invariant of the state: the hard reset meets it and every step keeps it (R31, R45, R86, R89). -/

namespace Sys2Proof.Machine

theorem State.latchesHold_of_idle {s : State} (hp : s.phase = .idle) : s.latchesHold := by
  rw [State.latchesHold, hp]
  trivial

namespace State.Inv

variable {s t : State}

/-- A step that leaves the store alone has the latches left to show. -/
theorem of_same_store (hs : s.Inv) (hcfg : t.cfg = s.cfg) (hstore : t.store = s.store) (hl : t.latchesHold) : t.Inv where
  cfgWf := hcfg ▸ hs.cfgWf
  storeWf := hstore ▸ hs.storeWf
  storeInside := by rw [State.storeInside, hcfg, hstore]; exact hs.storeInside
  limbsWhole := by rw [State.limbsWhole, hstore]; exact hs.limbsWhole
  latchesHold := hl

/-- So has a step that writes whole limbs j < KMAX of one register. -/
theorem of_writeLimbs (hs : s.Inv) {r : Reg} {j : Nat} {bs : List Byte} (hlen : bs.length % 8 = 0)
    (hfits : 8 * j + bs.length ≤ 8 * s.cfg.kmax) (hcfg : t.cfg = s.cfg)
    (hstore : t.store = s.store.writeBytes (limbOffset r j) bs) (hl : t.latchesHold) : t.Inv := by
  have ⟨_, hkmax, _⟩ := hs.cfgWf
  have hslot : ∀ x, limbOffset r j ≤ x → x < limbOffset r j + bs.length →
      0x10000 ≤ x ∧ x < 0x20000 ∧ x % 0x1000 / 8 < s.cfg.kmax := by
    intro x hlo hhi
    have hr := r.isLt
    unfold limbOffset at hlo hhi
    omega
  obtain ⟨hwf, hin, hwhole⟩ :=
    Memory.writeBytes_keeps hs.storeWf hs.storeInside hs.limbsWhole (limbOffset_aligned r j) hlen hslot
  exact
    { cfgWf := hcfg ▸ hs.cfgWf
      storeWf := hstore ▸ hwf
      storeInside := by rw [State.storeInside, hcfg, hstore]; exact hin
      limbsWhole := by rw [State.limbsWhole, hstore]; exact hwhole
      latchesHold := hl }

/-- While BUSY = 0 there are no latches to hold. -/
theorem latchesHold_of_busy_eq_false (hidle : s.busy = false) : s.latchesHold :=
  State.latchesHold_of_idle ((State.busy_eq_false_iff s).1 hidle)

/-- Latches that hold go on holding while the phase, ERR, LASTCMD and WIDTH stay and DONE is not set (R39, R45). -/
theorem latchesHold_congr (hl : s.latchesHold) (hphase : t.phase = s.phase) (hdone : s.done = false → t.done = false)
    (herr : t.err = s.err) (hlast : t.lastcmd = s.lastcmd) (hwidth : t.width = s.width) : t.latchesHold := by
  unfold State.latchesHold at hl ⊢
  rw [hphase, herr, hlast, hwidth]
  cases hp : s.phase with
  | idle => trivial
  | exec w kl =>
    rw [hp] at hl
    exact hl.imp_left hdone

/-- Every completion keeps the invariant: the phase is IDLE, and a result fills the slot's limbs below KMAX (R165). -/
theorem of_completesAs (hs : s.Inv) {dest : Option Reg} (h : CompletesAs s dest t) : t.Inv := by
  cases h with
  | error b e _ ht => subst ht; exact hs.of_same_store (by simp) (by simp) trivial
  | nothing _ ht => subst ht; exact hs.of_same_store rfl rfl trivial
  | result b rd k v _ _ hk _ ht =>
    subst ht
    have hlen := writeback_length s v hk
    exact hs.of_writeLimbs (r := rd) (j := 0) (by rw [hlen]; omega) (by rw [hlen]; omega) (by simp) (by simp) trivial

theorem of_engineTurn (hs : s.Inv) (h : engineTurn s = .next t) : t.Inv := by
  rcases engineTurn_next h with ⟨-, rfl⟩ | ⟨w, kl, -, ⟨-, rfl⟩ | ⟨i, -, hc⟩⟩
  · exact hs
  · exact hs.of_same_store rfl rfl trivial
  · exact hs.of_completesAs hc

theorem of_accessLeaves (hs : s.Inv) {a : Access} (h : AccessLeaves s a t) : t.Inv := by
  have hl := hs.latchesHold
  cases h with
  | same => exact hs
  | refused => exact hs.of_same_store rfl rfl (latchesHold_congr hl rfl id rfl rfl rfl)
  | ctrl v =>
    cases hv : v.getLsbD 0 with
    | true => rw [State.writeCtrl_reset s v hv]; exact hs.of_same_store rfl rfl trivial
    | false =>
      rw [State.writeCtrl_enable s v hv]
      exact hs.of_same_store rfl rfl (latchesHold_congr hl rfl id rfl rfl rfl)
  | status v =>
    exact hs.of_same_store rfl rfl (latchesHold_congr hl rfl (fun hdone => by simp [hdone]) rfl rfl rfl)
  | width v hidle => exact hs.of_same_store rfl rfl (latchesHold_of_busy_eq_false hidle)
  | accept v => exact hs.of_same_store rfl rfl ⟨rfl, rfl, rfl, rfl⟩
  | limb r j v hidle _ hj =>
    exact hs.of_writeLimbs (by simp) (by rw [valueBytes_length]; omega) rfl (s.setLimb_store r j v)
      (latchesHold_of_busy_eq_false hidle)

end State.Inv

/-- The store that lists nothing and the phase IDLE: only the parameters have a bound to meet. -/
theorem State.hardResetOf_inv {c : Config} (hc : c.wf) (n : Nat) (rest : List Input) : (State.hardResetOf c n rest).Inv where
  cfgWf := hc
  storeWf := Memory.wf_nil
  storeInside := nofun
  limbsWhole := nofun
  latchesHold := trivial

/-! ### The obligations -/

/-- Settles O53: the reference parameters are in bounds too. -/
theorem resetMeetsInvariant : Obligations.ResetMeetsInvariant :=
  ⟨State.hardResetOf_inv (by decide) 0 [], fun _ n rest hc => State.hardResetOf_inv hc n rest⟩

/-- Settles O52: a completion or a limb write fills whole limbs below KMAX, every other move leaves the store alone or drops it, and
what BUSY = 1 refuses keeps the latches. -/
theorem stepKeepsInvariant : Obligations.StepKeepsInvariant := by
  intro s t hs h
  have keeps : ∀ (u : State) (r : Option Response), u.Inv → State.Inv { u with inputs := s.inputs.tail, resp := r } :=
    fun u r hu => hu.of_same_store rfl rfl hu.latchesHold
  rcases step_leaves h with ⟨-, hturn⟩ | ⟨a, u, r, -, hu, rfl⟩ | ⟨rest, -, rfl⟩
  · exact (keeps s none hs).of_engineTurn hturn
  · exact keeps u r (hs.of_accessLeaves hu)
  · exact State.hardResetOf_inv hs.cfgWf _ rest

end Sys2Proof.Machine
end

section
/-! WIDTH and the limbs at the host port: what a write leaves and what a read returns (R42, R86, R91). -/

namespace Sys2Proof.Machine

/-- WIDTH reads as the low 16 bits of the word last written (R42). -/
theorem State.writeWidth_widthWord (s : State) (v : Word) :
    (s.writeWidth v).widthWord = BitVec.ofNat 64 (v.toNat % 2 ^ 16) := by
  apply BitVec.eq_of_toNat_eq
  simp [State.widthWord]

/-- Repeating a read from the state that the first left gives the same (R91): the first left the state alone, or set OVR, which a
refused read sets again. -/
theorem State.readTarget_readTarget (s : State) (tg : Target) :
    (s.readTarget tg).1.readTarget tg = s.readTarget tg := by
  rcases s.readTarget_cases tg with hsame | ⟨hbusy, ⟨r, j, rfl⟩, hover⟩
  · rw [hsame]
  · have hbusy' : s.overrun.busy = true := hbusy
    rw [hover, State.readTarget, if_pos hbusy']
    rfl

theorem State.readTarget_cfg (s : State) (tg : Target) : (s.readTarget tg).1.cfg = s.cfg := by
  rcases s.readTarget_cases tg with hsame | ⟨-, -, hover⟩
  · rw [hsame]
  · rw [hover]; rfl

/-! ### The obligations -/

/-- Settles O14: while BUSY = 0 the write leads to `State.writeWidth`, and while BUSY = 1 to `State.overrun`. -/
theorem widthWriteStoresLowBits : Obligations.WidthWriteStoresLowBits := by
  intro s v
  refine ⟨fun hidle => ⟨s.writeWidth v, ?write, by simp, rfl, ?readBack⟩, fun hbusy => ?refused⟩
  case write => rw [State.respond_write_width, if_neg (Bool.eq_false_iff.1 hidle)]
  case readBack => rw [State.respond_read_width, State.writeWidth_widthWord]
  case refused => rw [State.respond_write_width, if_pos hbusy]; rfl

/-- Settles O18: the write leads to `State.setLimb`, which leaves BUSY and every other limb as they were. -/
theorem limbWriteIsReadBack : Obligations.LimbWriteIsReadBack := by
  intro s r j v hkmax hj hidle
  have hself := s.limb_setLimb_self r j v
  have hj512 : j < 512 := by omega
  refine ⟨s.setLimb r j v, ?write, hself, ?readBack, fun r' j' hj' hne => ?others, rfl⟩
  case write =>
    have hwrite := s.respond_write_limb r hj512 v
    rwa [if_pos hj, if_neg (Bool.eq_false_iff.1 hidle)] at hwrite
  case readBack =>
    have hidle' : (s.setLimb r j v).busy = false := hidle
    have hread := State.respond_read_limb_idle hidle' r hj512
    rwa [State.setLimb_cfg, if_pos hj, State.readLimb_some hself] at hread
  case others => exact s.limb_setLimb_other v hj512 (by omega) (hne.imp Ne.symm Ne.symm)

/-- Settles O19: while BUSY = 0 the read leaves the state and answers `State.readLimb`, which is the limb or a free value. -/
theorem unwrittenLimbReadGetsFreeValue : Obligations.UnwrittenLimbReadGetsFreeValue := by
  intro s r j rest hkmax hj hidle hin
  have hj512 : j < 512 := by omega
  have hadm : (Access.read (limbOffset r j) 8).admitted = true :=
    (Access.admitted_iff _).2 ⟨rfl, limbOffset_aligned r j, limbOffset_lt_windowSize r hj512⟩
  have hstep : step s = .next { s with inputs := rest, resp := some (.readOkay (s.readLimb r j)) } := by
    have hread := step_admitted (a := .read (limbOffset r j) 8) hin hadm
    rwa [State.respond_read_limb_idle hidle r hj512, if_pos hj] at hread
  refine ⟨fun hnone => ?_, fun v hv => ?_⟩
  · rw [hstep, State.readLimb_none hnone]
  · rw [hstep, State.readLimb_some hv]

/-- Settles O22: BERR changes nothing, and an admitted read can only set OVR, on which its answer does not depend. -/
theorem readsAreIdempotent : Obligations.ReadsAreIdempotent := by
  intro s t off size r h
  cases hadm : (Access.read off size).admitted with
  | false =>
    have hberr := State.respond_of_not_admitted hadm s
    obtain ⟨rfl, rfl⟩ := Prod.mk.inj (hberr.symm.trans h)
    exact ⟨.inl rfl, hberr⟩
  | true =>
    have hread : ∀ u : State, u.respond (.read off size) =
        ((u.readTarget (targetOf u.cfg off)).1, .readOkay (u.readTarget (targetOf u.cfg off)).2) :=
      fun u => by simp [State.respond, hadm]
    obtain ⟨rfl, rfl⟩ := Prod.mk.inj ((hread s).symm.trans h)
    refine ⟨?effect, ?again⟩
    case effect =>
      refine (s.readTarget_cases (targetOf s.cfg off)).imp_right fun ⟨hbusy, hlimb, hover⟩ => ⟨hbusy, hlimb, ?_⟩
      rw [hover]
      rfl
    case again => rw [hread, State.readTarget_cfg, State.readTarget_readTarget]

end Sys2Proof.Machine
end

section
/-! Limbs as bytes, and registers as sums of limbs (R11, R88). -/

namespace Sys2Proof.Machine

/-- A byte of a value is the remainder of its quotient. -/
theorem getElem?_valueBytes (n v m : Nat) (hm : m < n) :
    (valueBytes n v)[m]? = some (BitVec.ofNat 8 (v / 2 ^ (8 * m) % 256)) := by
  induction n generalizing v m with
  | zero => omega
  | succ n ih =>
    cases m with
    | zero => simp [valueBytes]
    | succ m =>
      have hpow : (2 : Nat) ^ (8 * (m + 1)) = 256 * 2 ^ (8 * m) := by ring
      rw [valueBytes, List.getElem?_cons_succ, ih _ _ (by omega), Nat.div_div_eq_div_mul, hpow]

theorem valueBytes_bytesValue (bs : List Byte) : valueBytes bs.length (bytesValue bs) = bs := by
  induction bs with
  | nil => rfl
  | cons b bs ih =>
    have hb := b.isLt
    have hlow : (b.toNat + 256 * bytesValue bs) % 256 = b.toNat := by omega
    have hhigh : (b.toNat + 256 * bytesValue bs) / 256 = bytesValue bs := by omega
    rw [List.length_cons, valueBytes, bytesValue, hlow, hhigh, ih, BitVec.ofNat_toNat, BitVec.setWidth_eq]

/-- Eight bytes hold a word exactly when they are the word's bytes. -/
theorem ofNat_bytesValue_eq_iff {bs : List Byte} (hlen : bs.length = 8) (v : Word) :
    BitVec.ofNat 64 (bytesValue bs) = v ↔ bs = valueBytes 8 v.toNat := by
  have hlt : bytesValue bs < 2 ^ 64 := by simpa [hlen] using bytesValue_lt bs
  constructor
  · rintro rfl
    rw [BitVec.toNat_ofNat, Nat.mod_eq_of_lt hlt, ← hlen, valueBytes_bytesValue]
  · rintro rfl
    rw [bytesValue_valueBytes, Nat.mod_eq_of_lt v.isLt, BitVec.ofNat_toNat, BitVec.setWidth_eq]

/-- Byte lane m of a word (R88). -/
theorem getElem?_valueBytes_toNat (v : Word) {m : Nat} (hm : m < 8) :
    (valueBytes 8 v.toNat)[m]? = some (v.extractLsb' (8 * m) 8) := by
  rw [getElem?_valueBytes 8 _ m hm]
  congr 1
  apply BitVec.eq_of_toNat_eq
  simp [Nat.shiftRight_eq_div_pow]

theorem State.limb_eq_some_iff (s : State) (r : Reg) (j : Nat) (v : Word) :
    s.limb r j = some v ↔ s.store.readBytes (limbOffset r j) 8 = some (valueBytes 8 v.toNat) := by
  rw [State.limb, Option.map_eq_some_iff]
  constructor
  · rintro ⟨bs, hbs, hv⟩
    obtain ⟨hlen, -⟩ := (Memory.readBytes_eq_some_iff ..).1 hbs
    rw [hbs, (ofNat_bytesValue_eq_iff hlen v).1 hv]
  · exact fun h => ⟨_, h, (ofNat_bytesValue_eq_iff (valueBytes_length ..) v).2 rfl⟩

theorem State.big_eq_sum {s : State} {r : Reg} {k : Nat} {f : Nat → Word} (hf : ∀ j < k, s.limb r j = some (f j)) :
    s.big r k = some (∑ j ∈ Finset.range k, (f j).toNat * 2 ^ (64 * j)) := by
  induction k with
  | zero => simp [State.big_zero]
  | succ k ih =>
    rw [State.big_succ, ih fun j hj => hf j (by omega), hf k (by omega), Finset.sum_range_succ]
    simp [mul_comm]

theorem State.source_eq_sum (s : State) (r : Reg) (k : Nat) :
    s.source r k = ∑ j ∈ Finset.range k, (s.readLimb r j).toNat * 2 ^ (64 * j) := by
  induction k with
  | zero => rfl
  | succ k ih => rw [State.source, ih, Finset.sum_range_succ, mul_comm (2 ^ (64 * k))]

/-- One unwritten limb leaves the register without a value (R34). -/
theorem State.big_eq_none {s : State} {r : Reg} {k j : Nat} (hj : j < k) (hnone : s.limb r j = none) : s.big r k = none := by
  rw [← Option.not_isSome_iff_eq_none, State.big_isSome_iff]
  intro hall
  simpa [hnone] using hall j hj

/-! ### The obligations -/

/-- Settles O20: the limb's eight bytes are the bytes of its value, and byte m of a value is its bits 8m+7 to 8m. -/
theorem limbBytesAreLittleEndian : Obligations.LimbBytesAreLittleEndian := by
  intro s r j v
  rw [State.limb_eq_some_iff, Memory.readBytes_eq_some_iff, and_iff_right (valueBytes_length ..)]
  exact forall₂_congr fun m hm => by rw [getElem?_valueBytes_toNat v hm]; rfl

/-- Settles O21: both readings of a register grow by one weighted limb at a time. -/
theorem registerValueIsSumOfLimbs : Obligations.RegisterValueIsSumOfLimbs :=
  fun s r k => ⟨fun _ => State.big_eq_sum, fun ⟨_, hj, hnone⟩ => State.big_eq_none hj hnone, fun _ => State.source_eq,
    s.source_eq_sum r k, fun _ => ⟨fun _ => State.readLimb_some, State.readLimb_none⟩⟩

end Sys2Proof.Machine
end

section
/-! The seed's precision step by step, and the host-driven chain of values (R211, R212, R241). -/

namespace Sys2Proof.Machine

theorem seedAfter_lt (v i : Nat) : seedAfter v i < 2 ^ 64 := by
  cases i with
  | zero => exact (romSeed_lt v).trans (by decide)
  | succ i => exact mulLow_lt _ _ _

theorem newtonChain_lt {k : Nat} (hk : 1 ≤ k) (a i : Nat) : newtonChain k a i < 2 ^ (64 * k) := by
  cases i with
  | zero => exact (romSeed_lt a).trans_le (Nat.pow_le_pow_right two_pos (by omega))
  | succ i => exact mulLow_lt _ _ _

/-- The precision of the chain starts at the 8 bits of the ROM and doubles in every update, up to n (R241). -/
theorem mul_newtonChain_modEq_one {k a : Nat} (hodd : a % 2 = 1) (i : Nat) :
    a * newtonChain k a i ≡ 1 [MOD 2 ^ min (8 * 2 ^ i) (64 * k)] := by
  induction i with
  | zero => exact (mul_romSeed_modEq_one hodd).of_dvd (pow_dvd_pow 2 (min_le_left _ _))
  | succ i ih =>
    have hdouble : min (8 * 2 ^ (i + 1)) (64 * k) ≤ 2 * min (8 * 2 ^ i) (64 * k) := by
      rw [pow_succ]
      omega
    exact mul_newton_modEq_one ih hdouble (min_le_right _ _)

/-! ### The obligations -/

/-- Settles O44: the ROM's contents were checked against their definition entry by entry. -/
theorem romHoldsByteInverses : Obligations.RomHoldsByteInverses :=
  ⟨rfl, mul_romEntry_modEq_one⟩

/-- Settles O45: each step squares the error. -/
theorem seedStepsDoubleThePrecision : Obligations.SeedStepsDoubleThePrecision := by
  intro v _ hodd
  refine ⟨fun i hi => ⟨(modEq_one_iff ?_).1 (mul_seedAfter_modEq_one hodd hi), seedAfter_lt v i⟩, rfl⟩
  have := Nat.one_le_two_pow (n := i)
  omega

/-- Settles O51: after ceil(log2(n/8)) updates the precision is n, and INV's value is the only n-bit inverse. -/
theorem hostDrivenChainEndsWithInv : Obligations.HostDrivenChainEndsWithInv := by
  intro k a hk _ hodd
  have hrounds : 8 * k ≤ 2 ^ Nat.clog 2 (8 * k) := Nat.le_pow_clog one_lt_two _
  have hprecision : min (8 * 2 ^ Nat.clog 2 (8 * k)) (64 * k) = 64 * k := by omega
  have hinverse := mul_newtonChain_modEq_one (k := k) hodd (Nat.clog 2 (8 * k))
  rw [hprecision] at hinverse
  exact eq_invert hk hodd (newtonChain_lt hk a _) hinverse

end Sys2Proof.Machine
end

section
/-! What a command computes, said once for all of them: its sources at the latched width decide a result or NOT_INVERTIBLE, and the
rest of the command is the same for every opcode (R33, R162 to R165). -/

namespace Sys2Proof.Machine

/-! ### One equation for every command with a destination -/

/-- What a command computes from its sources at limb count k; none where it ends with NOT_INVERTIBLE. NOP computes nothing. -/
def State.resultOf (s : State) (i : Instr) (k : Nat) : Option Nat :=
  match i with
  | .nop => none
  | .addm _ rs1 rs2 => some (addMod (64 * k) (s.source rs1 k) (s.source rs2 k))
  | .subm _ rs1 rs2 => some (subMod (64 * k) (s.source rs1 k) (s.source rs2 k))
  | .mullo _ rs1 rs2 => some (mulLow (64 * k) (s.source rs1 k) (s.source rs2 k))
  | .sub2 _ rs1 => some (subFromTwo (64 * k) (s.source rs1 k))
  | .seed _ rs1 sel =>
    if (s.readLimb rs1 0).toNat % 2 = 0 then none
    else some (if sel then romSeed (s.readLimb rs1 0).toNat else seedFull (s.readLimb rs1 0).toNat)
  | .inv _ rs1 => if s.source rs1 k % 2 = 0 then none else some (invert k (s.source rs1 k))

/-- How a command ends, given what it computed. -/
def State.finish (s : State) (rd : Reg) (k : Nat) (result : Option Nat) : State :=
  match result with
  | some v => s.complete .ok (some { rd := rd, k := k, v := v })
  | none => s.complete .notInvertible none

theorem exec_of_dest {i : Instr} {rd : Reg} (hd : i.dest = some rd) (s : State) :
    exec i s = s.withWidth fun k => .next ((s.afterSources i.sources (i.limbsRead k)).finish rd k (s.resultOf i k)) := by
  cases i with
  | nop => cases hd
  | addm | subm | mullo | sub2 => cases hd; rfl
  | seed =>
    cases hd
    rw [exec_seed]
    congr 1
    funext k
    rw [State.resultOf]
    split <;> rfl
  | inv =>
    cases hd
    rw [exec_inv]
    congr 1
    funext k
    rw [State.resultOf]
    split <;> rfl

theorem exec_of_runsAt {i : Instr} {rd : Reg} {s : State} {k : Nat} (hd : i.dest = some rd) (hk : s.runsAt k) :
    exec i s = .next ((s.afterSources i.sources (i.limbsRead k)).finish rd k (s.resultOf i k)) := by
  rw [exec_of_dest hd, State.withWidth_of_runsAt hk]

theorem eq_nop_of_dest_eq_none {i : Instr} (hd : i.dest = none) : i = .nop := by
  cases i with
  | nop => rfl
  | addm | subm | mullo | sub2 | seed | inv => cases hd

/-! ### Only the limbs read decide (R33) -/

/-- What a command computes depends on how the limbs it reads are read only. -/
theorem State.resultOf_congr {i : Instr} {s s' : State} {k : Nat}
    (h : ∀ r ∈ i.sources, ∀ j < i.limbsRead k, s'.readLimb r j = s.readLimb r j) : s'.resultOf i k = s.resultOf i k := by
  have source_eq : ∀ r ∈ i.sources, i.limbsRead k = k → s'.source r k = s.source r k :=
    fun r hr hall => State.source_congr fun j hj => h r hr j (by rwa [hall])
  cases i with
  | nop => rfl
  | addm rd rs1 rs2 | subm rd rs1 rs2 | mullo rd rs1 rs2 =>
    rw [State.resultOf, State.resultOf, source_eq rs1 (by simp [Instr.sources]) rfl,
      source_eq rs2 (by simp [Instr.sources]) rfl]
  | sub2 rd rs1 | inv rd rs1 =>
    rw [State.resultOf, State.resultOf, source_eq rs1 (by simp [Instr.sources]) rfl]
  | seed rd rs1 sel =>
    rw [State.resultOf, State.resultOf, h rs1 (by simp [Instr.sources]) 0 (by simp [Instr.limbsRead])]

/-- A writeback leaves the same destination register, whatever the state it writes to. -/
theorem State.limb_writeback_congr {s s' : State} (hcfg : s'.cfg = s.cfg) (rd : Reg) (k v : Nat) {j : Nat}
    (hj : j < s.cfg.kmax) : (s'.writeback rd k v).limb rd j = (s.writeback rd k v).limb rd j := by
  rcases Nat.lt_or_ge j k with hlow | hhigh
  · rw [State.limb_writeback_low s' rd hlow, State.limb_writeback_low s rd hlow]
  · rw [State.limb_writeback_high s' rd hhigh (hcfg ▸ hj), State.limb_writeback_high s rd hhigh hj]

/-- Two completions with the same computed result end alike. -/
theorem State.finish_congr {s s' : State} (hcfg : s'.cfg = s.cfg) (rd : Reg) (k : Nat) (result : Option Nat) :
    (s'.finish rd k result).err = (s.finish rd k result).err ∧
      ((s.finish rd k result).err = .ok →
        ∀ j < s.cfg.kmax, (s'.finish rd k result).limb rd j = (s.finish rd k result).limb rd j) := by
  cases result with
  | none => exact ⟨rfl, nofun⟩
  | some v => exact ⟨rfl, fun _ _ hj => State.limb_writeback_congr hcfg rd k v hj⟩

/-! ### What a completion writes and leaves (R162, R165) -/

/-- The store after a completion: an error and NOP leave it, and a result changes the destination's slot only. -/
theorem CompletesAs.readByte_eq {s t : State} {dest : Option Reg} (h : CompletesAs s dest t) {x : Nat}
    (hx : t.err = .ok → ∀ rd, dest = some rd → ¬ (limbOffset rd 0 ≤ x ∧ x < limbOffset rd 0 + 8 * s.cfg.kmax)) :
    t.store.readByte x = s.store.readByte x := by
  cases h with
  | error b e _ ht => subst ht; simp
  | nothing _ ht => subst ht; simp
  | result b rd k v hd _ hk hv ht =>
    subst ht
    obtain ⟨-, -, hframe⟩ := State.writesResult_afterRead s b rd hk hv
    exact hframe x (hx rfl rd hd)

/-! ### The obligations -/

/-- Settles O29: each of the three ways to complete records ERR and DONE, and only a result reaches the store, at its destination. -/
theorem completionFrame : Obligations.CompletionFrame := by
  intro i s t h
  have hc := exec_next h
  refine ⟨hc.completesWith, fun rd hd x hx => hc.readByte_eq fun _ rd' hd' => ?_,
    fun hd x => hc.readByte_eq fun _ rd' hd' => ?_⟩
  · obtain rfl : rd = rd' := Option.some.inj (hd.symm.trans hd')
    exact hx
  · rw [hd] at hd'; cases hd'

/-- Settles O30: nothing in a command's meaning asks whether a limb has been written but the count of free values, which no
clause speaks of; the parity of what is read picks the branch of SEED and INV. -/
theorem everyCommandRunsOnUnwrittenLimbs : Obligations.EveryCommandRunsOnUnwrittenLimbs := by
  intro s k rd rs1 rs2 hk
  refine ⟨exec_writesResult (exec_addm rd rs1 rs2 s) hk (addMod_lt ..),
    exec_writesResult (exec_subm rd rs1 rs2 s) hk (subMod_lt ..),
    exec_writesResult (exec_mullo rd rs1 rs2 s) hk (mulLow_lt ..),
    exec_writesResult (exec_sub2 rd rs1 s) hk (subFromTwo_lt ..), fun sel => ?seed, ?inv⟩
  case seed =>
    rcases Nat.mod_two_eq_zero_or_one (s.readLimb rs1 0).toNat with heven | hodd
    · obtain ⟨t, hexec, hnothing⟩ := exec_seed_writesNothing hk rd sel heven
      exact ⟨t, hexec, fun _ => hnothing, fun hodd => by omega⟩
    · obtain ⟨t, hexec, hresult⟩ := exec_seed_writesResult hk rd sel hodd
      exact ⟨t, hexec, fun heven => by omega, fun _ => hresult⟩
  case inv =>
    rcases Nat.mod_two_eq_zero_or_one (s.source rs1 k) with heven | hodd
    · obtain ⟨t, hexec, hnothing⟩ := exec_inv_writesNothing hk rd heven
      exact ⟨t, hexec, fun _ => hnothing, fun hodd => by omega⟩
    · obtain ⟨t, hexec, hresult⟩ := exec_inv_writesResult hk rd hodd
      exact ⟨t, hexec, fun heven => by omega, fun _ => hresult⟩

/-- Settles O31: the limbs read fix what the command computes, and that fixes how it ends and what its destination holds. -/
theorem onlyTheSourceLimbsDecide : Obligations.OnlyTheSourceLimbsDecide := by
  intro i s s' t k hk hphase hcfg hread h
  have ⟨⟨w, kl, hp, hkl⟩, h1, hmax⟩ := hk
  cases hd : i.dest with
  | none =>
    obtain rfl := eq_nop_of_dest_eq_none hd
    refine ⟨_, exec_nop_of_exec (hphase.trans hp), ?_, nofun⟩
    rw [exec_nop_err_ok h, State.complete_err]
  | some rd =>
    have hk' : s'.runsAt k := ⟨⟨w, kl, hphase.trans hp, hkl⟩, h1, hcfg ▸ hmax⟩
    rw [exec_of_runsAt hd hk] at h
    cases h
    refine ⟨_, exec_of_runsAt hd hk', ?_⟩
    rw [State.resultOf_congr hread]
    have hcfg' : (s'.afterSources i.sources (i.limbsRead k)).cfg = (s.afterSources i.sources (i.limbsRead k)).cfg := by
      simpa [State.afterSources] using hcfg
    obtain ⟨herr, hlimbs⟩ := State.finish_congr hcfg' rd k (s.resultOf i k)
    refine ⟨herr, fun hok rd' hd' j hj => ?_⟩
    cases hd'
    exact hlimbs hok j (by simpa [State.afterSources] using hj)

end Sys2Proof.Machine
end

section
/-! The whole machine over every step: the interrupt, the operand store, the free values, and how a step or a run can end
(R48, R91, R162, R168, R270). -/

namespace Sys2Proof.Machine

/-! ### The interrupt (R48, R270) -/

/-- What an access does to IE and DONE, and so to `irq`. -/
theorem AccessLeaves.irq_cases {s u : State} {a : Access} (h : AccessLeaves s a u) :
    u.irq = s.irq ∨ (∃ v : Word, a = .write 0x010 8 v ∧ u.irq = (s.ie && (s.done && !v.getLsbD 1))) ∨
    (∃ v : Word, a = .write 0x008 8 v ∧ u.irq = (!v.getLsbD 0 && (v.getLsbD 1 && s.done))) ∨
    (∃ v : Word, a = .write 0x020 8 v ∧ s.busy = false ∧ u.irq = false) := by
  cases h with
  | same | refused | width | limb => exact .inl rfl
  | status v ha => exact .inr (.inl ⟨v, ha, rfl⟩)
  | ctrl v ha =>
    refine .inr (.inr (.inl ⟨v, ha, ?_⟩))
    cases hv : v.getLsbD 0 with
    | true => rw [State.writeCtrl_reset s v hv]; rfl
    | false => rw [State.writeCtrl_enable s v hv]; rfl
  | accept v hidle ha => exact .inr (.inr (.inr ⟨v, ha, hidle, s.accept_irq v⟩))

/-- What the engine's turn does to `irq`: nothing, or it completes a command, and then the level is IE. -/
theorem engineTurn_irq_cases {s t : State} (h : engineTurn s = .next t) :
    t.irq = s.irq ∨ (s.busy = true ∧ t.busy = false ∧ t.irq = s.ie) := by
  obtain ⟨-, -, -, hie, hidle, hbusy, -⟩ := engineTurn_keeps h
  cases hb : s.busy with
  | false => rw [hidle hb]; exact .inl rfl
  | true =>
    obtain ⟨htbusy, hdone⟩ := hbusy hb
    refine .inr ⟨rfl, htbusy, ?_⟩
    rw [State.irq, hdone, hie, Bool.and_true]

/-- What a step does to `irq`. -/
theorem step_irq_cases {s t : State} (h : step s = .next t) :
    t.irq = s.irq ∨ (s.engineNext ∧ s.busy = true ∧ t.busy = false ∧ t.irq = s.ie) ∨
    (∃ v : Word, s.nextAccess = some (.write 0x010 8 v) ∧ t.irq = (s.ie && (s.done && !v.getLsbD 1))) ∨
    (∃ v : Word, s.nextAccess = some (.write 0x008 8 v) ∧ t.irq = (!v.getLsbD 0 && (v.getLsbD 1 && s.done))) ∨
    (∃ v : Word, s.nextAccess = some (.write 0x020 8 v) ∧ s.busy = false ∧ t.irq = false) ∨
    ((∃ rest, s.inputs = .hardReset :: rest) ∧ t.irq = false) := by
  rcases step_leaves h with ⟨hnext, hturn⟩ | ⟨a, u, r, hnext, hu, rfl⟩ | ⟨rest, hin, rfl⟩
  · exact (engineTurn_irq_cases hturn).imp_right fun hcompletes => .inl ⟨hnext, hcompletes⟩
  · rcases hu.irq_cases with hsame | ⟨v, rfl, hstatus⟩ | ⟨v, rfl, hctrl⟩ | ⟨v, rfl, haccept⟩
    · exact .inl hsame
    · exact .inr (.inr (.inl ⟨v, hnext, hstatus⟩))
    · exact .inr (.inr (.inr (.inl ⟨v, hnext, hctrl⟩)))
    · exact .inr (.inr (.inr (.inr (.inl ⟨v, hnext, haccept⟩))))
  · exact .inr (.inr (.inr (.inr (.inr ⟨⟨rest, hin⟩, rfl⟩))))

/-- Settles O55: a completion sets DONE, and of the accesses only those to STATUS, CTRL and CMD reach IE or DONE. -/
theorem interruptFollowsCompletion : Obligations.InterruptFollowsCompletion := by
  intro s t h
  refine ⟨rfl, fun hlow hhigh => ?rises, fun hhigh hlow => ?falls⟩
  case rises =>
    rcases step_irq_cases h with hsame | ⟨hnext, hbusy, hidle, hie⟩ | ⟨v, -, hstatus⟩ | ⟨v, hnext, hctrl⟩ | ⟨v, -, -, hacc⟩ |
      ⟨-, hreset⟩
    · simp [hsame, hlow] at hhigh
    · exact .inl ⟨hnext, hbusy, hidle, hie.symm.trans hhigh⟩
    · obtain ⟨hie, hdone, -⟩ : s.ie = true ∧ s.done = true ∧ v.getLsbD 1 = false := by simpa [hstatus] using hhigh
      simp [State.irq, hie, hdone] at hlow
    · obtain ⟨hsrst, henable, hdone⟩ : v.getLsbD 0 = false ∧ v.getLsbD 1 = true ∧ s.done = true := by
        simpa [hctrl] using hhigh
      exact .inr ⟨hdone, v, hnext, hsrst, henable⟩
    · simp [hacc] at hhigh
    · simp [hreset] at hhigh
  case falls =>
    obtain ⟨hie, hdone⟩ : s.ie = true ∧ s.done = true := Bool.and_eq_true_iff.1 hhigh
    rcases step_irq_cases h with hsame | ⟨-, -, -, hturn⟩ | ⟨v, hnext, hstatus⟩ | ⟨v, hnext, hctrl⟩ | ⟨v, hnext, hidle, -⟩ |
      ⟨hreset, -⟩
    · simp [hsame, hhigh] at hlow
    · simp [hturn, hie] at hlow
    · exact .inl ⟨v, hnext, by simpa [hstatus, hie, hdone] using hlow⟩
    · exact .inr (.inl ⟨v, hnext, by simpa [hctrl, hdone, imp_iff_not_or] using hlow⟩)
    · exact .inr (.inr (.inl ⟨hidle, v, hnext⟩))
    · exact .inr (.inr (.inr hreset))

/-! ### The operand store (R32, R86, R165, R300) -/

/-- What an access does to a byte of the store: nothing, unless it writes the limb that holds it while BUSY = 0. -/
theorem AccessLeaves.readByte_cases {s u : State} {a : Access} (h : AccessLeaves s a u) (x : Nat) :
    u.store.readByte x = s.store.readByte x ∨
    (s.busy = false ∧ ∃ (r : Reg) (j : Nat) (v : Word), a = .write (limbOffset r j) 8 v ∧
      targetOf s.cfg (limbOffset r j) = .limb r j ∧ limbOffset r j ≤ x ∧ x < limbOffset r j + 8) := by
  cases h with
  | same | refused | status | width | accept => exact .inl rfl
  | ctrl v => exact .inl (by rw [State.writeCtrl_store])
  | limb r j v hidle ha hj hj' =>
    by_cases hx : limbOffset r j ≤ x ∧ x < limbOffset r j + 8
    · exact .inr ⟨hidle, r, j, v, ha, by rw [targetOf_limbOffset _ r hj', if_pos hj], hx⟩
    · exact .inl (Memory.readByte_writeBytes_outside (by rwa [valueBytes_length]))

/-- What the engine's turn does to a byte of the store: nothing, unless a successful command's destination holds it. -/
theorem engineTurn_readByte_cases {s t : State} (h : engineTurn s = .next t) (x : Nat) :
    t.store.readByte x = s.store.readByte x ∨
    (t.err = .ok ∧ ∃ w kl i rd, s.phase = .exec w kl ∧ decode w = some i ∧ i.dest = some rd ∧
      limbOffset rd 0 ≤ x ∧ x < limbOffset rd 0 + 8 * s.cfg.kmax) := by
  rcases engineTurn_next h with ⟨-, rfl⟩ | ⟨w, kl, hp, ⟨-, rfl⟩ | ⟨i, hdec, hc⟩⟩
  · exact .inl rfl
  · exact .inl rfl
  · by_cases hx : t.err = .ok ∧ ∃ rd, i.dest = some rd ∧ limbOffset rd 0 ≤ x ∧ x < limbOffset rd 0 + 8 * s.cfg.kmax
    · obtain ⟨hok, rd, hd, hslot⟩ := hx
      exact .inr ⟨hok, w, kl, i, rd, hp, hdec, hd, hslot⟩
    · exact .inl (hc.readByte_eq fun hok rd hd hslot => hx ⟨hok, rd, hd, hslot⟩)

/-- Settles O56: each kind of step reaches a byte in one way only. -/
theorem operandStoreChangesOnlyBy : Obligations.OperandStoreChangesOnlyBy := by
  intro s t x h hne
  rcases step_leaves h with ⟨hnext, hturn⟩ | ⟨a, u, r, hnext, hu, rfl⟩ | ⟨rest, hin, -⟩
  · obtain ⟨hok, hdest⟩ := (engineTurn_readByte_cases hturn x).resolve_left hne
    exact .inr (.inl ⟨hnext, hok, hdest⟩)
  · obtain ⟨hidle, r, j, v, rfl, htg, hlo, hhi⟩ := (hu.readByte_cases x).resolve_left hne
    exact .inl ⟨hidle, _, v, hnext, hlo, hhi, r, j, htg⟩
  · exact .inr (.inr ⟨rest, hin⟩)

/-! ### How a step and a run can end (R82, R162, R168) -/

/-- The engine's turn never stops. -/
theorem exists_engineTurn_next (s : State) : ∃ t, engineTurn s = .next t := by
  cases hp : s.phase with
  | idle => exact ⟨s, engineTurn_of_idle hp⟩
  | exec w kl =>
    cases hd : decode w with
    | none => exact ⟨_, engineTurn_of_decode_none hp hd⟩
    | some i =>
      rw [engineTurn_of_decode_some hp hd]
      exact exec_completes hp i

/-- A step answers a next state, or it meets the one fault there is, on an access that is not admitted. -/
theorem step_next_or_busError (s : State) :
    (∃ t, step s = .next t) ∨ (step s = .fault .busError ∧ ∃ a, s.nextAccess = some a ∧ a.admitted = false) := by
  cases hin : s.inputs with
  | nil =>
    rw [step_of_nil hin]
    exact .inl (exists_engineTurn_next _)
  | cons move rest =>
    cases move with
    | engineTurn =>
      rw [step_of_engineTurn hin]
      exact .inl (exists_engineTurn_next _)
    | hardReset => exact .inl ⟨_, step_hardReset hin⟩
    | access a =>
      cases hadm : a.admitted with
      | true => exact .inl ⟨_, step_admitted hin hadm⟩
      | false =>
        rw [step_of_access hin, hostAccess_of_not_admitted hadm]
        exact .inr ⟨rfl, a, State.nextAccess_of hin, hadm⟩

/-- Settles O57: only a host access can stop a step, and only by BERR. -/
theorem stepStopsOnlyWhen : Obligations.StepStopsOnlyWhen := by
  intro s
  refine ⟨fun f hf => ?_, fun m hm => ?_, fun i w kl hp => exec_completes hp i⟩ <;>
    rcases step_next_or_busError s with ⟨t, ht⟩ | ⟨hfault, ha⟩
  · rw [ht] at hf; cases hf
  · rw [hfault] at hf; cases hf; exact ⟨rfl, ha⟩
  · rw [ht] at hm; cases hm
  · rw [hfault] at hm; cases hm

/-- A run without a fault, taken apart at its first step. -/
theorem run_succ_next {n : Nat} {s t : State} (h : Host.Core.run Sys2Proof.core (n + 1) s = .next t) :
    ∃ u, step s = .next u ∧ Host.Core.run Sys2Proof.core n u = .next t := by
  simp only [Host.Core.run] at h
  split at h
  · next u hu => exact ⟨u, hu, h⟩
  · cases h
  · cases h

/-- Settles O58: each step takes off one move, and the step past the last is the engine's turn, which ends in IDLE. -/
theorem runEndsIdle : Obligations.RunEndsIdle := by
  intro s t h
  induction hn : s.inputs.length generalizing s with
  | zero =>
    rw [hn] at h
    have hin : s.inputs = [] := List.length_eq_zero_iff.1 hn
    obtain ⟨u, hu, hrun⟩ := run_succ_next h
    cases hrun
    rw [step_of_nil hin] at hu
    obtain ⟨hinputs, -, -, -, -, -, hidle⟩ := engineTurn_keeps hu
    exact ⟨hinputs.trans hin, hidle⟩
  | succ n ih =>
    obtain ⟨u, hu, hrun⟩ := run_succ_next h
    have hlen : u.inputs.length = n := by rw [(step_inputs_cfg hu).1, List.length_tail, hn, Nat.add_sub_cancel]
    refine ih u ?_ hlen
    rwa [hlen, ← hn]

/-! ### The free values (R91, R267, log entry 1) -/

theorem State.runsAt_unique {s : State} {k k' : Nat} (h : s.runsAt k) (h' : s.runsAt k') : k = k' := by
  obtain ⟨⟨w, kl, hp, rfl⟩, -⟩ := h
  obtain ⟨⟨w', kl', hp', rfl⟩, -⟩ := h'
  rw [hp] at hp'
  cases hp'
  rfl

theorem State.not_runsAt_of_badWidth {s : State} (h : s.badWidth) (k : Nat) : ¬ s.runsAt k := by
  rintro ⟨⟨w, kl, hp, rfl⟩, h1, hmax⟩
  obtain ⟨w', kl', hp', hbad⟩ := h
  rw [hp] at hp'
  cases hp'
  omega

@[simp] theorem State.finish_free (s : State) (rd : Reg) (k : Nat) (result : Option Nat) :
    (s.finish rd k result).free = s.free := by
  cases result <;> rfl

/-- What a command does to the count of free values: at a good width it is what reading the sources does, and otherwise nothing. -/
theorem exec_free_cases {i : Instr} {s t : State} (h : exec i s = .next t) :
    (¬ s.readsUnwritten i ∧ t.free = s.free) ∨
      ∃ k, s.runsAt k ∧ t.free = (s.afterSources i.sources (i.limbsRead k)).free := by
  cases hd : i.dest with
  | none =>
    obtain rfl := eq_nop_of_dest_eq_none hd
    refine .inl ⟨fun ⟨_, _, _, hsrc, _⟩ => List.not_mem_nil hsrc, ?_⟩
    cases exec_next h with
    | error b e he ht => subst ht; exact absurd (exec_nop_err_ok h) he
    | nothing _ ht => rw [ht, State.complete_free]
    | result b rd k v hd' => cases hd'
  | some rd =>
    rw [exec_of_dest hd] at h
    rcases State.withWidth_next_cases h with ⟨hbad, rfl⟩ | ⟨k, hk, hop⟩
    · exact .inl ⟨fun ⟨k, hk, _⟩ => State.not_runsAt_of_badWidth hbad k hk, State.complete_free ..⟩
    · cases hop
      exact .inr ⟨k, hk, State.finish_free ..⟩

theorem exec_free_of_readsUnwritten {i : Instr} {s t : State} (h : exec i s = .next t) (hr : s.readsUnwritten i) :
    t.free = s.free + 1 := by
  rcases exec_free_cases h with ⟨hnot, -⟩ | ⟨k, hk, hfree⟩
  · exact absurd hr hnot
  · obtain ⟨k', hk', r, hsrc, j, hj, hnone⟩ := hr
    obtain rfl := State.runsAt_unique hk hk'
    rw [hfree, State.afterSources_unwritten hsrc hj hnone]

theorem exec_free_of_not_readsUnwritten {i : Instr} {s t : State} (h : exec i s = .next t) (hr : ¬ s.readsUnwritten i) :
    t.free = s.free := by
  rcases exec_free_cases h with ⟨-, hfree⟩ | ⟨k, hk, hfree⟩
  · exact hfree
  · have hwritten : ∀ r ∈ i.sources, ∀ j < i.limbsRead k, (s.limb r j).isSome = true := by
      intro r hsrc j hj
      by_contra hnone
      exact hr ⟨k, hk, r, hsrc, j, hj, Option.not_isSome_iff_eq_none.1 hnone⟩
    rw [hfree, State.afterSources_written hwritten]

/-- What the engine's turn does to the count of free values. -/
theorem engineTurn_free_cases {s t : State} (h : engineTurn s = .next t) :
    t.free = s.free ∨ (t.free = s.free + 1 ∧ ∃ w kl i, s.phase = .exec w kl ∧ decode w = some i ∧ s.readsUnwritten i) := by
  rcases engineTurn_next h with ⟨-, rfl⟩ | ⟨w, kl, hp, ⟨-, rfl⟩ | ⟨i, hd, -⟩⟩
  · exact .inl rfl
  · exact .inl rfl
  · rw [engineTurn_of_decode_some hp hd] at h
    by_cases hr : s.readsUnwritten i
    · exact .inr ⟨exec_free_of_readsUnwritten h hr, w, kl, i, hp, hd, hr⟩
    · exact .inl (exec_free_of_not_readsUnwritten h hr)

/-- Settles O60: a command's read of its sources, and a hard reset, are the only updates of the count. -/
theorem freeValuesRenewedOnlyBy : Obligations.FreeValuesRenewedOnlyBy := by
  refine ⟨fun i s t h => ⟨exec_free_of_readsUnwritten h, exec_free_of_not_readsUnwritten h⟩, fun s t h => ⟨?reset, ?any⟩⟩
  case reset =>
    intro rest hin
    rw [step_hardReset hin] at h
    cases h
    rfl
  case any =>
    rcases step_leaves h with ⟨hnext, hturn⟩ | ⟨a, u, r, -, hu, rfl⟩ | ⟨rest, hin, rfl⟩
    · exact (engineTurn_free_cases hturn).imp_right fun ⟨hfree, hcmd⟩ => ⟨hfree, .inr ⟨hnext, hcmd⟩⟩
    · exact .inl hu.free_eq
    · exact .inr ⟨rfl, .inl ⟨rest, hin⟩⟩

end Sys2Proof.Machine
end
